-- ==== Sys2Proof/Word.lean ====
section
/-! DEFINITION. The two bounded decimal types of the core. The spec has no bits and no binary words
(00_scope.md R10), so none of these is a bit vector: a cell value is a number below 1000 and a cell
address a number below 100 (00_scope.md R4 to R7; log entry 1). -/

namespace Sys2Proof

/-- A cell address, and so also a value of the program counter and an address operand: `0..99`
(00_scope.md R4, R6, R7). -/
abbrev Addr := Fin 100

/-- What one memory cell or the accumulator holds: `0..999` (00_scope.md R5, R6). -/
abbrev Word := Fin 1000

end Sys2Proof
end

