-- ==== Sys2Proof/Syntax.lean ====
section
/-! DEFINITION. The instructions: one constructor for each row of spec/opcode_table.json. The first
ten are the decoded sum type of 30_encoding.md R76. `dat` is the directive's row (45_halt_data.md
R171), which no word decodes to; the three illegal rows carry the offending word, which the fault
must name (60_exceptions.md R181). -/

namespace Sys2Proof

inductive Instr where
  /-- ADD, 41_arithmetic.md R130. -/
  | add (a : Addr)
  /-- SUB, 41_arithmetic.md R131. -/
  | sub (a : Addr)
  /-- STA, 42_transfer.md R140. -/
  | sta (a : Addr)
  /-- LDA, 42_transfer.md R141. -/
  | lda (a : Addr)
  /-- BRA, 43_branch.md R150. -/
  | bra (a : Addr)
  /-- BRZ, 43_branch.md R151. -/
  | brz (a : Addr)
  /-- BRP, 43_branch.md R152. -/
  | brp (a : Addr)
  /-- INP, 44_io.md R160. -/
  | inp
  /-- OUT, 44_io.md R161. -/
  | out
  /-- HLT, 45_halt_data.md R170. The digits of its short word carry nothing (30_encoding.md R72). -/
  | hlt
  /-- DAT, 45_halt_data.md R171: a literal placed in a cell. -/
  | dat (v : Word)
  /-- The illegal words `400..499`, 30_encoding.md R79. -/
  | illegal400to499 (w : Word)
  /-- The illegal word `900`, 30_encoding.md R79. -/
  | illegal900
  /-- The illegal words `903..999`, 30_encoding.md R79. -/
  | illegal903to999 (w : Word)
  deriving DecidableEq, Repr

end Sys2Proof
end

