-- ==== Sys2Proof/WellFormed.lean ====
section
/-! DEFINITION. Which instruction terms stand for something the opcode table lists. Operand ranges
are in the operands' types (`Addr`, `Word`), so the only checks left are that the word an illegal
row carries lies in that row's range (30_encoding.md R78, R79). -/

namespace Sys2Proof

def Instr.wellFormed : Instr → Bool
  | .add _ => true
  | .sub _ => true
  | .sta _ => true
  | .lda _ => true
  | .bra _ => true
  | .brz _ => true
  | .brp _ => true
  | .inp => true
  | .out => true
  | .hlt => true
  | .dat _ => true
  | .illegal400to499 w => decide (400 ≤ w.val) && decide (w.val ≤ 499)
  | .illegal900 => true
  | .illegal903to999 w => decide (903 ≤ w.val)

end Sys2Proof
end

