-- ==== Sys2Proof/Decode.lean ====
section
/-! DEFINITION. Decimal digits (00_scope.md R10), the opcode decoder (30_encoding.md R74) and the
encoder, which is the assembler's opcode generation (30_encoding.md R98). The decoder is total on
the words `0..999` (R81): an illegal word becomes the constructor of its own row, whose meaning
raises `UnknownOpcode` for that word. -/

namespace Sys2Proof

/-- `dig_k(v)`: the decimal digit of `v` at position `k`, units at 0 (00_scope.md R10). -/
def dig (k v : Nat) : Nat := v / 10 ^ k % 10

/-- `ndig(v)`: how many decimal digits a word has without leading zeros (00_scope.md R10). -/
def ndig (w : Word) : Nat := if w.val < 10 then 1 else if w.val < 100 then 2 else 3

/-- The operand `a = w mod 100` (30_encoding.md R73): used as it stands, neither extended nor scaled. -/
def operandOf (w : Word) : Addr := ⟨w.val % 100, Nat.mod_lt _ (by decide)⟩

/-- `CLASS_TABLE` of 30_encoding.md R74: the class digit of each address handler. -/
def classTable : List (Nat × (Addr → Instr)) :=
  [(1, .add), (2, .sub), (3, .sta), (5, .lda), (6, .bra), (7, .brz), (8, .brp)]

/-- The handlers whose class is `c` (30_encoding.md R74, step 3). -/
def handlersOf (c : Nat) : List (Nat × (Addr → Instr)) := classTable.filter fun h => h.1 == c

/-- The row of the opcode table an undecodable word belongs to (30_encoding.md R78, R79). -/
def rejectWord (w : Word) : Instr :=
  if w.val < 900 then .illegal400to499 w
  else if w.val = 900 then .illegal900
  else .illegal903to999 w

/-- The decoder, in the priority order of 30_encoding.md R74. The match of step 3 must be unique (R75). -/
def decodeWord (w : Word) : Instr :=
  if ndig w < 3 then .hlt
  else if dig 2 w.val = 9 then
    if w.val = 901 then .inp
    else if w.val = 902 then .out
    else rejectWord w
  else
    match handlersOf (dig 2 w.val) with
    | [h] => h.2 (operandOf w)
    | _ => rejectWord w

/-- The instruction whose word, as a plain number, is `w` (the opcode table's words are decimal
numbers and have no bit layout; log entry 17). A number above 999 is no word (30_encoding.md R81). -/
def decodeTableWord (_nbits w : Nat) : Option Instr :=
  if h : w < 1000 then some (decodeWord ⟨w, h⟩) else none

/-- The word of class digit `c` and operand `a`: `c * 100 + a` (30_encoding.md R98). -/
def addressWord (c : Fin 10) (a : Addr) : Word := ⟨c.val * 100 + a.val, by omega⟩

/-- Opcode generation (30_encoding.md R98). An illegal row's word is the word it carries. -/
def encode : Instr → Word
  | .add a => addressWord 1 a
  | .sub a => addressWord 2 a
  | .sta a => addressWord 3 a
  | .lda a => addressWord 5 a
  | .bra a => addressWord 6 a
  | .brz a => addressWord 7 a
  | .brp a => addressWord 8 a
  | .inp => 901
  | .out => 902
  | .hlt => 0
  | .dat v => v
  | .illegal400to499 w => w
  | .illegal900 => 900
  | .illegal903to999 w => w

end Sys2Proof
end

