-- ==== Sys2Proof/Config.lean ====
section
/-! DEFINITION. What is fixed for a run from outside the core: the form of a host's answer to an
input request, and the two parameters the spec leaves OPEN (00_scope.md R8). The two OPEN ones have
no body, so nothing can be proved of their values (log entry 19). -/

namespace Sys2Proof

/-- The host's answer to one input request (44_io.md R162): an integer of any sign and size, or the
report that its text was not an integer. -/
inductive Answer where
  | value (k : Int)
  | parseFailure
  deriving DecidableEq, Repr, Inhabited

/-- `INPUT_PARSE` (00_scope.md R8, 92_eei_decisions.md D14): which input texts the host parses as
integers. OPEN in the spec, so it has no body here. -/
opaque Config.inputParse : String → Answer

/-- `SNAPSHOT_FORMAT` (00_scope.md R8, 92_eei_decisions.md D22): the text of a debug snapshot, from
its `pc`, `acc`, `neg` and the cells `M[0..99]`. OPEN in the spec, so it has no body here. -/
opaque Config.snapshotFormat : Addr → Word → Bool → List Word → String

end Sys2Proof
end

