-- ==== Sys2Proof/Machine/State.lean ====
section
/-! DEFINITION. The machine's state as plain data (10_state.md R20), the run's settings and channels
(00_scope.md R8, 10_state.md R32), the reasons a step can answer no next state, and the state after
reset (10_state.md R39). -/

namespace Sys2Proof.Machine

/-- The memory `M[0..99]`: the cells that hold no unlisted value (0), as (address, value) pairs
with strictly rising addresses (log entry 2). The unit is the cell: memory has no bytes
(20_memory.md R54). -/
abbrev Memory := List (Addr × Word)

/-- Which checked field an `InvalidState` fault names (60_exceptions.md R182). The flag is a boolean
and never holds a value out of range. -/
inductive Field where
  | pc
  | acc
  | cell (a : Addr)
  deriving DecidableEq, Repr

/-- The faults of 60_exceptions.md R180 with what each records. They are architectural: raising one
is a NEXT state whose status is `Faulted` (log entry 5). -/
inductive FaultKind where
  /-- The decoder, on the words `400..499`, `900`, `903..999` (R181). -/
  | unknownOpcode (w : Word)
  /-- A checked assignment out of range: the advance from 99, ADD, SUB, INP (R182). -/
  | invalidState (field : Field) (value : Int)
  /-- INP, on an answer that is no integer (R183). -/
  | inputError
  /-- The LOAD interface, on an image that does not fit (R184). -/
  | imageInvalid (image : List Int)
  deriving DecidableEq, Repr

/-- The fault record `f` (10_state.md R28): the kind with its information (its numeric code is
`FaultKind.code`) and the address the faulting step fetched from, absent for an image. -/
structure FaultRecord where
  kind : FaultKind
  fetchAddr : Option Addr
  deriving DecidableEq, Repr

/-- The run status (10_state.md R27). -/
inductive Status where
  | running
  | halted
  | faulted (f : FaultRecord)
  deriving DecidableEq, Repr

/-- One debug snapshot: `(pc, acc, neg, M[0..99])` (10_state.md R34). -/
structure Snapshot where
  pc : Addr
  acc : Word
  neg : Bool
  mem : Memory
  deriving DecidableEq, Repr

/-- `status`, `pc`, `acc`, `neg` and `mem` are the spec's architectural state (10_state.md R20). The
rest are the run's settings and channels: `debug` (R32), the answers the host gives to the coming
input requests, first one first (00_scope.md R8, 44_io.md R162), whether an input request is
outstanding (44_io.md R162), the values sent on OUT (R163) and the snapshots sent on TRACE
(10_state.md R34), both oldest first. -/
structure State where
  status : Status
  pc : Addr
  acc : Word
  neg : Bool
  mem : Memory
  debug : Bool
  answers : List Answer
  waiting : Bool
  output : List Word
  trace : List Snapshot
  deriving DecidableEq, Repr

/-- Why a step answers no next state. None of these is a fault of the spec: those are statuses
(`FaultKind`). -/
inductive Fault where
  /-- Raised by `step` on a core whose status is `Halted`: it takes no further step (10_state.md R27,
  60_exceptions.md R196). Safe: the core does nothing there either. -/
  | halted
  /-- Raised by `step` on a core whose status is `Faulted f`: no further step is taken
  (60_exceptions.md R180, R189). Safe: the core does nothing there either. -/
  | faulted (f : FaultRecord)
  /-- Raised by `step` on a core that waits for an answer the host has not given: stuck, no step
  (44_io.md R162, 40_cycle.md R119, 93_implementation_defined.md row 13). Safe: the core does nothing
  there either. -/
  | waitingForInput
  deriving DecidableEq, Repr

/-- Why an instruction has no meaning. -/
inductive Refusal where
  /-- Raised by an arm of `exec` whose instruction has no meaning yet. No arm does, so none is
  raised. Safe. -/
  | notModelled (mnemonic : String)
  deriving DecidableEq, Repr

/-- The machine right after reset with the empty image (10_state.md R39, 70_reset_and_hazards.md
R210). `acc`, `neg` and the zero cells are the spec's own decisions D2 and D3 (log entries 3 and 4);
`debug` and `answers` are settings of a run (log entries 6 and 9). A program comes in through
`State.boot` (log entry 17). -/
def State.reset : State where
  status := .running
  pc := 0
  acc := 0
  neg := false
  mem := []
  debug := false
  answers := []
  waiting := false
  output := []
  trace := []

end Sys2Proof.Machine
end

