-- ==== Sys2Proof/Machine/Ops.lean ====
section
/-! DEFINITION. The shared operations: reading and writing cells, checked assignment, raising a
fault, emitting on OUT and TRACE, and asking for input. -/

namespace Sys2Proof.Machine

/-! ### Memory -/

/-- What a cell holds that the list does not name: 0 (10_state.md R39, 92_eei_decisions.md D3). -/
def Memory.unlisted : Word := 0

/-- `MemRead(a)`: total, no effect (20_memory.md R51). -/
def Memory.read : Memory → Addr → Word
  | [], _ => Memory.unlisted
  | (b, v) :: m, a => if b = a then v else Memory.read m a

/-- Puts cell `a` in front of a list of higher cells, unless it holds what an unlisted cell holds. -/
def Memory.put (a : Addr) (v : Word) (m : Memory) : Memory :=
  if v = Memory.unlisted then m else (a, v) :: m

/-- The committed write of 20_memory.md R52: cell `a` becomes `v`, in canonical form. -/
def Memory.write : Memory → Addr → Word → Memory
  | [], a, v => Memory.put a v []
  | (b, u) :: m, a, v =>
    if a < b then Memory.put a v ((b, u) :: m)
    else if a = b then Memory.put a v m
    else (b, u) :: Memory.write m a v

/-- The canonical form: addresses strictly rise, and no entry holds what an unlisted cell holds. -/
abbrev Memory.wf (m : Memory) : Prop :=
  m.Pairwise (fun p q => p.1 < q.1) ∧ m.all (fun p => p.2 != Memory.unlisted) = true

/-- The cells `M[0..99]` in order. -/
def Memory.cells (m : Memory) : List Word := (List.finRange 100).map m.read

/-! ### Raising a fault -/

/-- The numeric code of a fault (60_exceptions.md R180, 92_eei_decisions.md D5). -/
def FaultKind.code : FaultKind → Nat
  | .unknownOpcode _ => 1
  | .invalidState _ _ => 2
  | .inputError => 3
  | .imageInvalid _ => 4

/-- `raise F(info)` with the fetch address to record: the status becomes `Faulted`, and all that was
committed stays (60_exceptions.md R180, 00_scope.md R13). No mode, mask or pc changes (R187). -/
def State.raiseAt (s : State) (fa : Option Addr) (k : FaultKind) : State :=
  { s with status := .faulted { kind := k, fetchAddr := fa } }

/-- The address the running step fetched from. During a handler `pc` holds it plus one
(10_state.md R26, 40_cycle.md R112), so it is read back from `pc` (log entry 10). -/
def State.fetchAddress (s : State) : Addr := ⟨s.pc.val - 1, by omega⟩

/-- `raise F(info)` from the decoder or a handler, which run after the advance. -/
def State.raise (s : State) (k : FaultKind) : State := s.raiseAt (some s.fetchAddress) k

/-! ### Checked assignment (00_scope.md R12): in range it commits, else nothing is written and
`InvalidState` names the field and the value (60_exceptions.md R182). -/

/-- An integer as a cell or accumulator value, if it lies in `0..999`. -/
def wordOfInt (v : Int) : Option Word :=
  if h : 0 ≤ v ∧ v ≤ 999 then some ⟨v.toNat, by omega⟩ else none

/-- An integer as an address, if it lies in `0..99`. -/
def addrOfInt (v : Int) : Option Addr :=
  if h : 0 ≤ v ∧ v ≤ 99 then some ⟨v.toNat, by omega⟩ else none

/-- `pc <- v`. -/
def State.assignPc (s : State) (v : Int) : Except FaultKind State :=
  match addrOfInt v with
  | some a => .ok { s with pc := a }
  | none => .error (.invalidState .pc v)

/-- `acc <- v`. -/
def State.assignAcc (s : State) (v : Int) : Except FaultKind State :=
  match wordOfInt v with
  | some w => .ok { s with acc := w }
  | none => .error (.invalidState .acc v)

/-- `MemWrite(a, v)` (20_memory.md R52). -/
def State.memWrite (s : State) (a : Addr) (v : Int) : Except FaultKind State :=
  match wordOfInt v with
  | some w => .ok { s with mem := s.mem.write a w }
  | none => .error (.invalidState (.cell a) v)

/-- `neg <- b`: a boolean is never out of range (60_exceptions.md R182). -/
def State.assignNeg (s : State) (b : Bool) : State := { s with neg := b }

/-- Ends a handler with a checked assignment made in state `s`: its commit, or the fault raised in
`s`, which keeps what was committed before (00_scope.md R13). -/
def State.commit (s : State) : Except FaultKind State → Host.Outcome State Fault Refusal
  | .ok t => .next t
  | .error k => .next (s.raise k)

/-! ### The channels -/

/-- `Emit(v)` (44_io.md R163). -/
def State.emit (s : State) (v : Word) : State := { s with output := s.output ++ [v] }

/-- The snapshot of a state (10_state.md R34). -/
def State.snapshot (s : State) : Snapshot :=
  { pc := s.pc, acc := s.acc, neg := s.neg, mem := s.mem }

/-- `if DEBUG: Trace(...)`, the first statement of a step (40_cycle.md R111). -/
def State.traced (s : State) : State :=
  if s.debug then { s with trace := s.trace ++ [s.snapshot] } else s

/-- `Input()` where the host has answered: its next answer, and the state with that answer taken and
no request outstanding (44_io.md R162); none where it has not. -/
def State.takeAnswer (s : State) : Option (Answer × State) :=
  match s.answers with
  | [] => none
  | x :: rest => some (x, { s with answers := rest, waiting := false })

/-- The input request is sent and the core waits; nothing else changes (44_io.md R162). -/
def State.awaitInput (s : State) : State := { s with waiting := true }

end Sys2Proof.Machine
end

