-- ==== Sys2Proof/Machine/Flags.lean ====
section
/-! DEFINITION. The sign-magnitude accumulator: its signed value, and the split of an exact result
into the flag and the magnitude. `neg` is the only flag (10_state.md R23). -/

namespace Sys2Proof.Machine

/-- `signed(acc, neg)` (10_state.md R24). -/
def signedValue (acc : Word) (neg : Bool) : Int := if neg then -(acc.val : Int) else (acc.val : Int)

/-- The signed value of the accumulator, `-999..999`. -/
def State.signed (s : State) : Int := signedValue s.acc s.neg

/-- The flag of an exact result: set exactly when the result is below zero (41_arithmetic.md R130). -/
def negativeFlag (r : Int) : Bool := decide (r < 0)

/-- `neg <- (r < 0); acc <- |r|`, in that order: where the magnitude does not fit, the flag is
already written and the accumulator keeps its value (41_arithmetic.md R130, R131,
92_eei_decisions.md D4, log entry 13). -/
def State.splitResult (s : State) (r : Int) : Host.Outcome State Fault Refusal :=
  (s.assignNeg (negativeFlag r)).commit ((s.assignNeg (negativeFlag r)).assignAcc (r.natAbs : Int))

end Sys2Proof.Machine
end

