-- ==== Sys2Proof/Machine/Operands.lean ====
section
/-! DEFINITION. The one operand form: the absolute address (30_encoding.md R73), read as a memory
operand or used as a branch target. -/

namespace Sys2Proof.Machine

/-- The memory operand `m = M[a]` as an integer, `0..999` (41_arithmetic.md R130). -/
def State.operand (s : State) (a : Addr) : Int := ((s.mem.read a).val : Int)

/-- A taken branch: `pc <- a`, checked (43_branch.md R150). -/
def State.branchTo (s : State) (a : Addr) : Host.Outcome State Fault Refusal :=
  s.commit (s.assignPc (a.val : Int))

end Sys2Proof.Machine
end

