-- ==== Sys2Proof/Machine/Arithmetic.lean ====
section
/-! DEFINITION. ADD and SUB (41_arithmetic.md): exact integer arithmetic, then the split. -/

namespace Sys2Proof.Machine

/-- ADD, 41_arithmetic.md R130. -/
def execAdd (a : Addr) (s : State) : Host.Outcome State Fault Refusal :=
  s.splitResult (s.signed + s.operand a)

/-- SUB, 41_arithmetic.md R131. -/
def execSub (a : Addr) (s : State) : Host.Outcome State Fault Refusal :=
  s.splitResult (s.signed - s.operand a)

end Sys2Proof.Machine
end

