-- ==== Sys2Proof/Machine/Branch.lean ====
section
/-! DEFINITION. BRA, BRZ and BRP (43_branch.md). They run after the advance, so a branch that is not
taken leaves the advanced pc (40_cycle.md R112). -/

namespace Sys2Proof.Machine

/-- BRA, 43_branch.md R150. -/
def execBra (a : Addr) (s : State) : Host.Outcome State Fault Refusal :=
  s.branchTo a

/-- BRZ, 43_branch.md R151: tests the magnitude only. -/
def execBrz (a : Addr) (s : State) : Host.Outcome State Fault Refusal :=
  if s.acc = 0 then s.branchTo a else .next s

/-- BRP, 43_branch.md R152: tests the flag only. -/
def execBrp (a : Addr) (s : State) : Host.Outcome State Fault Refusal :=
  if s.neg = false then s.branchTo a else .next s

end Sys2Proof.Machine
end

