-- ==== Sys2Proof/Machine/Halt.lean ====
section
/-! DEFINITION. HLT (45_halt_data.md R170) and the three rows of illegal words (30_encoding.md R79),
which raise `UnknownOpcode` for the word they carry (60_exceptions.md R181). -/

namespace Sys2Proof.Machine

/-- HLT, 45_halt_data.md R170: `pc` keeps its advanced value (40_cycle.md R114). -/
def execHlt (s : State) : Host.Outcome State Fault Refusal :=
  .next { s with status := .halted }

/-- The decoder's fault: no handler runs, so nothing but the status changes (60_exceptions.md R181). -/
def State.unknownOpcode (s : State) (w : Word) : State := s.raise (.unknownOpcode w)

/-- The words `400..499`, 30_encoding.md R79. -/
def execIllegal400to499 (w : Word) (s : State) : Host.Outcome State Fault Refusal :=
  .next (s.unknownOpcode w)

/-- The word `900`, 30_encoding.md R79. -/
def execIllegal900 (s : State) : Host.Outcome State Fault Refusal :=
  .next (s.unknownOpcode 900)

/-- The words `903..999`, 30_encoding.md R79. -/
def execIllegal903to999 (w : Word) (s : State) : Host.Outcome State Fault Refusal :=
  .next (s.unknownOpcode w)

end Sys2Proof.Machine
end

