-- ==== Sys2Proof/Machine/InOut.lean ====
section
/-! DEFINITION. INP and OUT (44_io.md), and going on with an INP that waits. -/

namespace Sys2Proof.Machine

/-- What INP does with the host's answer (44_io.md R160). -/
def State.acceptAnswer (s : State) : Answer → Host.Outcome State Fault Refusal
  | .parseFailure => .next (s.raise .inputError)
  | .value k => s.commit (s.assignAcc k)

/-- INP, 44_io.md R160: takes the host's answer where there is one; else its request is sent and the
core waits (R162, log entry 7). -/
def execInp (s : State) : Host.Outcome State Fault Refusal :=
  match s.takeAnswer with
  | some (x, t) => t.acceptAnswer x
  | none => .next s.awaitInput

/-- A waiting core: it goes on with its INP once the host has answered; until then it takes no step
(44_io.md R162, 93_implementation_defined.md row 13). -/
def resumeInp (s : State) : Host.Outcome State Fault Refusal :=
  match s.takeAnswer with
  | some (x, t) => t.acceptAnswer x
  | none => .fault .waitingForInput

/-- OUT, 44_io.md R161: sends the magnitude, without the sign (92_eei_decisions.md D15). -/
def execOut (s : State) : Host.Outcome State Fault Refusal :=
  .next (s.emit s.acc)

end Sys2Proof.Machine
end

