-- ==== Sys2Proof/Machine/Transfer.lean ====
section
/-! DEFINITION. STA and LDA (42_transfer.md). -/

namespace Sys2Proof.Machine

/-- STA, 42_transfer.md R140: the magnitude is stored, the sign is not. -/
def execSta (a : Addr) (s : State) : Host.Outcome State Fault Refusal :=
  s.commit (s.memWrite a (s.acc.val : Int))

/-- LDA, 42_transfer.md R141: `acc <- MemRead(a)`, then `neg <- false`. -/
def execLda (a : Addr) (s : State) : Host.Outcome State Fault Refusal :=
  match s.assignAcc (s.operand a) with
  | .ok t => .next (t.assignNeg false)
  | .error k => .next (s.raise k)

end Sys2Proof.Machine
end

