-- ==== Sys2Proof/Machine/Data.lean ====
section
/-! DEFINITION. DAT (45_halt_data.md R171). It is no instruction: the decoder never answers it. What
the spec says of one that control reaches is that its value is decoded like any word, and that is
its meaning here (log entry 15). -/

namespace Sys2Proof.Machine

/-- DAT v, 45_halt_data.md R171: runs as the instruction the word `v` spells. No word decodes to a
DAT (`Laws.decodeWord_ne_dat`), so its own arm is never reached; it fails as a word that matches no
decode rule (30_encoding.md R75). -/
def execDat (v : Word) (s : State) : Host.Outcome State Fault Refusal :=
  match decodeWord v with
  | .add a => execAdd a s
  | .sub a => execSub a s
  | .sta a => execSta a s
  | .lda a => execLda a s
  | .bra a => execBra a s
  | .brz a => execBrz a s
  | .brp a => execBrp a s
  | .inp => execInp s
  | .out => execOut s
  | .hlt => execHlt s
  | .dat u => .next (s.unknownOpcode u)
  | .illegal400to499 w => execIllegal400to499 w s
  | .illegal900 => execIllegal900 s
  | .illegal903to999 w => execIllegal903to999 w s

end Sys2Proof.Machine
end

