-- ==== Sys2Proof/Machine/Dispatch.lean ====
section
/-! DEFINITION. The exhaustive dispatch of 40_cycle.md R116: one arm per row of the opcode table. It
runs after the advance, so `pc` holds the fetch address plus one (40_cycle.md R112). -/

namespace Sys2Proof.Machine

def exec (i : Instr) (s : State) : Host.Outcome State Fault Refusal :=
  match i with
  | .add a => Sys2Proof.Machine.execAdd a s
  | .sub a => Sys2Proof.Machine.execSub a s
  | .sta a => Sys2Proof.Machine.execSta a s
  | .lda a => Sys2Proof.Machine.execLda a s
  | .bra a => Sys2Proof.Machine.execBra a s
  | .brz a => Sys2Proof.Machine.execBrz a s
  | .brp a => Sys2Proof.Machine.execBrp a s
  | .inp => Sys2Proof.Machine.execInp s
  | .out => Sys2Proof.Machine.execOut s
  | .hlt => Sys2Proof.Machine.execHlt s
  | .dat v => Sys2Proof.Machine.execDat v s
  | .illegal400to499 w => Sys2Proof.Machine.execIllegal400to499 w s
  | .illegal900 => Sys2Proof.Machine.execIllegal900 s
  | .illegal903to999 w => Sys2Proof.Machine.execIllegal903to999 w s

end Sys2Proof.Machine
end

