-- ==== Sys2Proof/Machine/Cycle.lean ====
section
/-! DEFINITION. One pass of the fetch-decode-execute loop (40_cycle.md R111), without the test of the
status, which is `step`'s. -/

namespace Sys2Proof.Machine

/-- `w <- MemRead(pc)` (40_cycle.md R111, 20_memory.md R50). -/
def State.fetchWord (s : State) : Word := s.mem.read s.pc

/-- `pc <- pc + 1`, checked: there is no wrap from 99 (40_cycle.md R113, log entry 12). -/
def State.advance (s : State) : Except FaultKind State := s.assignPc ((s.pc.val : Int) + 1)

/-- Trace, fetch, advance, decode, dispatch, in that order (40_cycle.md R111). A fault of the advance
pre-empts the decode (60_exceptions.md R186). -/
def runCycle (s : State) : Host.Outcome State Fault Refusal :=
  match s.traced.advance with
  | .ok t => exec (decodeWord s.fetchWord) t
  | .error k => .next (s.traced.raiseAt (some s.pc) k)

end Sys2Proof.Machine
end

