-- ==== Sys2Proof/Machine/Step.lean ====
section
/-! DEFINITION. The step of the machine, and the placing of a word where the next step fetches it. -/

namespace Sys2Proof.Machine

/-- One step (40_cycle.md R110, R111). A step is taken only in `Running`; a core that waits for input
goes on with its INP, any other runs one pass of the loop. -/
def step (s : State) : Host.Outcome State Fault Refusal :=
  match s.status with
  | .halted => .fault .halted
  | .faulted f => .fault (.faulted f)
  | .running => if s.waiting then resumeInp s else runCycle s

/-- `s` with the word `w` in the cell at `pc`, which the next step fetches (40_cycle.md R111). The
word is the plain number `w` (log entry 17); a number above 999 is no word and fits no cell, and
leaves `s` as it is. -/
def State.withFetchWord (s : State) (_nbits w : Nat) : State :=
  if h : w < 1000 then { s with mem := s.mem.write s.pc ⟨w, h⟩ } else s

end Sys2Proof.Machine
end

