-- ==== Sys2Proof/Machine/Assembler.lean ====
section
/-! DEFINITION. The assembler (30_encoding.md R90 to R101), which makes the images the LOAD interface
takes. It is toolchain, not core (00_scope.md R3): no step runs it. It starts from token lists, since
comments and white space are stripped outside it (R91, log entry 21). -/

namespace Sys2Proof.Machine

/-- Why a line is a `SyntaxError` (30_encoding.md R96, R97). The wording of the messages for
`unexpectedArgument` is not settled by the spec (92_eei_decisions.md D23). -/
inductive SyntaxReason where
  | tooManyTokens
  | unknownMnemonic
  | wrongNumberOfArguments
  | invalidArgument
  | unexpectedArgument
  deriving DecidableEq, Repr

/-- The assembly errors (30_encoding.md R100), with the 0-based line. None is a core fault
(60_exceptions.md R185). -/
inductive AsmError where
  | syntaxError (line : Nat) (reason : SyntaxReason)
  | unresolvedReference (line : Nat) (token : String)
  deriving DecidableEq, Repr

/-- The mnemonics with an address argument (30_encoding.md R97). -/
def addressForms : List (String × (Addr → Instr)) :=
  [("ADD", .add), ("SUB", .sub), ("STA", .sta), ("LDA", .lda), ("BRA", .bra), ("BRZ", .brz), ("BRP", .brp)]

/-- The mnemonics with no argument (30_encoding.md R97). -/
def plainForms : List (String × Instr) := [("INP", .inp), ("OUT", .out), ("HLT", .hlt)]

/-- One of the 11 mnemonics, matched exactly (30_encoding.md R90, 92_eei_decisions.md D19). -/
def isMnemonic (t : String) : Bool :=
  (addressForms.map Prod.fst).contains t || (plainForms.map Prod.fst).contains t || t == "DAT"

/-- The label pass from line `i` on: the labels bound, in line order, and the lines without them
(30_encoding.md R93). -/
def labelPass (i : Nat) : List (List String) → List (String × Nat) × List (List String)
  | [] => ([], [])
  | [] :: rest =>
    let r := labelPass (i + 1) rest
    (r.1, [] :: r.2)
  | (t :: ts) :: rest =>
    let r := labelPass (i + 1) rest
    if isMnemonic t then (r.1, (t :: ts) :: r.2) else ((t, i) :: r.1, ts :: r.2)

/-- The line of a label: its last definition wins (30_encoding.md R93, 92_eei_decisions.md D18). -/
def labelLine (labels : List (String × Nat)) (t : String) : Option Nat := labels.reverse.lookup t

/-- The value of a token of one or more digits `0-9`, base 10, leading zeros allowed
(30_encoding.md R90, 92_eei_decisions.md D20); none for any other token. -/
def parseNumber (t : String) : Option Nat :=
  let ds := t.toList
  if ds.isEmpty || !ds.all Char.isDigit then none
  else some (ds.foldl (fun n d => 10 * n + (d.toNat - 48)) 0)

/-- The argument's value (30_encoding.md R95): absent, a number, or else a label's line. -/
def resolveArgument (labels : List (String × Nat)) (line : Nat) : List String → Except AsmError (Option Nat)
  | [] => .ok none
  | t :: _ =>
    match parseNumber t with
    | some n => .ok (some n)
    | none =>
      match labelLine labels t with
      | some n => .ok (some n)
      | none => .error (.unresolvedReference line t)

/-- The instruction of a mnemonic and its resolved argument (30_encoding.md R97). -/
def validate (line : Nat) (m : String) (arg : Option Nat) : Except AsmError Instr :=
  match addressForms.lookup m with
  | some make =>
    match arg with
    | none => .error (.syntaxError line .wrongNumberOfArguments)
    | some n => if h : n < 100 then .ok (make ⟨n, h⟩) else .error (.syntaxError line .invalidArgument)
  | none =>
    match plainForms.lookup m with
    | some i => if arg.isNone then .ok i else .error (.syntaxError line .unexpectedArgument)
    | none =>
      if h : arg.getD 0 < 1000 then .ok (.dat ⟨arg.getD 0, h⟩)
      else .error (.syntaxError line .invalidArgument)

/-- The opcode of one line without its label: the token count (30_encoding.md R96), the mnemonic
(92_eei_decisions.md D25), the argument (R95, R97), generation (R98). -/
def compileLine (labels : List (String × Nat)) (line : Nat) : List String → Except AsmError Word
  | [] => .ok 0
  | m :: args =>
    if 1 < args.length then .error (.syntaxError line .tooManyTokens)
    else if !isMnemonic m then .error (.syntaxError line .unknownMnemonic)
    else
      match resolveArgument labels line args with
      | .error e => .error e
      | .ok arg =>
        match validate line m arg with
        | .error e => .error e
        | .ok i => .ok (encode i)

/-- The second pass from line `i` on: one opcode a line, or the first error (30_encoding.md R99, R100). -/
def compileLines (labels : List (String × Nat)) (i : Nat) : List (List String) → Except AsmError (List Word)
  | [] => .ok []
  | l :: rest =>
    match compileLine labels i l with
    | .error e => .error e
    | .ok w =>
      match compileLines labels (i + 1) rest with
      | .error e => .error e
      | .ok ws => .ok (w :: ws)

/-- Both passes (30_encoding.md R93 to R99): the image as the list of its opcodes. -/
def assemble (program : List (List String)) : Except AsmError (List Word) :=
  compileLines (labelPass 0 program).1 0 (labelPass 0 program).2

end Sys2Proof.Machine
end

