-- ==== Sys2Proof/Machine/Load.lean ====
section
/-! DEFINITION. The host's side before and during a run: the image load and the reset
(70_reset_and_hazards.md R210, R211), and answering input requests (44_io.md R162). -/

namespace Sys2Proof.Machine

/-- The image's values as cells, if every one lies in `0..999` (70_reset_and_hazards.md R211). -/
def imageCells : List Int → Option (List Word)
  | [] => some []
  | v :: vs =>
    match wordOfInt v, imageCells vs with
    | some w, some ws => some (w :: ws)
    | _, _ => none

/-- The memory whose cells from address `i` on hold the given values, every other cell 0. -/
def Memory.ofCells (i : Nat) : List Word → Memory
  | [] => []
  | w :: ws => if h : i < 100 then Memory.put ⟨i, h⟩ w (Memory.ofCells (i + 1) ws) else []

/-- `load(I)` (70_reset_and_hazards.md R211): all-or-nothing (20_memory.md R53), cells beyond the
image become 0 (92_eei_decisions.md D3). -/
def State.load (s : State) (image : List Int) : Except FaultKind State :=
  if image.length ≤ 100 then
    match imageCells image with
    | some ws => .ok { s with mem := Memory.ofCells 0 ws }
    | none => .error (.imageInvalid image)
  else .error (.imageInvalid image)

/-- `reset(image, debug)` (70_reset_and_hazards.md R210) with the answers the host will give
(00_scope.md R8). An image that does not fit leaves no cell written and the core in `Faulted`, with
no fetch address (60_exceptions.md R184, log entry 20). -/
def State.boot (image : List Int) (debug : Bool) (answers : List Answer) : State :=
  match State.reset.load image with
  | .ok s => { s with debug := debug, answers := answers }
  | .error k => State.reset.raiseAt none k

/-- The host gives further answers (44_io.md R162): all it may change during a run (40_cycle.md R117). -/
def State.supply (s : State) (xs : List Answer) : State := { s with answers := s.answers ++ xs }

/-- The host answers with a line of text, parsed as `INPUT_PARSE` says (44_io.md R162). -/
def State.supplyText (s : State) (line : String) : State := s.supply [Config.inputParse line]

/-- The text of one snapshot as `SNAPSHOT_FORMAT` gives it (10_state.md R34). -/
def Snapshot.text (p : Snapshot) : String := Config.snapshotFormat p.pc p.acc p.neg p.mem.cells

/-- The trace as text (10_state.md R34). -/
def State.traceText (s : State) : List String := s.trace.map Snapshot.text

end Sys2Proof.Machine
end

