-- ==== Sys2Proof/Machine/Run.lean ====
section
/-! DEFINITION. Runs under the host's step budget, and how a run stands (40_cycle.md R115, R119). -/

namespace Sys2Proof.Machine

/-- Finishes the fetch cycle in progress: an INP that waits goes on once the host has answered. Any
other core is between fetch cycles, or still waits, and stays as it is (40_cycle.md R115, R117). -/
def State.finishCycle (s : State) : State :=
  if s.waiting then
    match step s with
    | .next t => t
    | .fault _ => s
    | .refused _ => s
  else s

/-- The host lets the core begin at most `budget` fetch cycles (10_state.md R36). The budget is checked
only between fetch cycles (40_cycle.md R115), so going on with an INP that waited costs nothing of it
and is not stopped by it (log entry 18). A core that takes no step keeps its state. -/
def runWithin : Nat → State → State
  | 0, s => s.finishCycle
  | n + 1, s =>
    match step s.finishCycle with
    | .next t => runWithin n t
    | .fault _ => s.finishCycle
    | .refused _ => s.finishCycle

/-- How a run stands in a state (40_cycle.md R119). Only `halted` is the normal end. -/
inductive Ending where
  | halted
  | faulted (f : FaultRecord)
  /-- An INP whose request the host has not answered: no end, stuck. -/
  | waitingForInput
  /-- The core can take a further step; where the host stops here, its budget is spent. -/
  | running
  deriving DecidableEq, Repr

/-- What the host reads on STATUS (10_state.md R35). -/
def State.ending (s : State) : Ending :=
  match s.status with
  | .halted => .halted
  | .faulted f => .faulted f
  | .running => if s.waiting && s.answers.isEmpty then .waitingForInput else .running

end Sys2Proof.Machine
end

