-- ==== Sys2Proof/Safety.lean ====
section
/-! DEFINITION. What claims about runs are stated in: the invariants of the state, and how runs end. -/

namespace Sys2Proof.Machine

/-- The words that decode to no instruction (30_encoding.md R79). -/
abbrev illegalWord (w : Word) : Prop := (400 ≤ w.val ∧ w.val ≤ 499) ∨ w.val = 900 ∨ 903 ≤ w.val

/-- The memory, and the memory in every snapshot, is in canonical form. -/
def State.MemoryCanonical (s : State) : Prop := s.mem.wf ∧ ∀ p ∈ s.trace, p.mem.wf

/-- The fault happened after the advance: `pc` is the recorded fetch address plus one. -/
def FaultRecord.AfterAdvance (f : FaultRecord) (s : State) : Prop :=
  ∃ fa : Addr, f.fetchAddr = some fa ∧ s.pc.val = fa.val + 1

/-- A fault record fits the state that holds it: the places faults arise in, with the value and the
`pc` of each (60_exceptions.md R181 to R184). No cell write ever faults. -/
def FaultRecord.Exact (f : FaultRecord) (s : State) : Prop :=
  match f.kind with
  | .unknownOpcode w => illegalWord w ∧ f.AfterAdvance s
  | .invalidState .pc v => v = 100 ∧ f.fetchAddr = some 99 ∧ s.pc = 99
  | .invalidState .acc v => (v < 0 ∨ 999 < v) ∧ f.AfterAdvance s
  | .invalidState (.cell _) _ => False
  | .inputError => f.AfterAdvance s
  | .imageInvalid image => f.fetchAddr = none ∧ (100 < image.length ∨ ∃ v ∈ image, v < 0 ∨ 999 < v)

/-- The status fits the rest of the state: a core that halted, or that waits for input, has advanced
past its instruction (40_cycle.md R114, R117); only a running core waits; a fault record is exact. -/
def State.StatusExact (s : State) : Prop :=
  match s.status with
  | .running => s.waiting = true → 1 ≤ s.pc.val
  | .halted => s.waiting = false ∧ 1 ≤ s.pc.val
  | .faulted f => s.waiting = false ∧ f.Exact s

/-- Negative zero: `acc = 0, neg = true` (10_state.md R25). -/
def State.NegativeZero (s : State) : Prop := s.acc = 0 ∧ s.neg = true

/-- The state without the debug setting and the trace: all a program computes with. -/
def State.withoutTrace (s : State) : State := { s with debug := false, trace := [] }

/-- The next step of a running core fetches a word: it has no INP to go on with, and the advance does
not leave `0..99`. -/
def State.AtFetch (s : State) : Prop := s.status = .running ∧ s.waiting = false ∧ s.pc.val < 99

/-- The state in which the handler of a step from `s` runs: the snapshot is emitted and `pc` is
advanced (40_cycle.md R111, R112). -/
def State.advanced (s : State) (next : Addr) : State := { s.traced with pc := next }

/-- A run from `s` ends successfully: its status becomes `Halted` (40_cycle.md R119). -/
def State.EndsSuccessfully (s : State) : Prop := ∃ n, (runWithin n s).status = .halted

end Sys2Proof.Machine
end

