-- ==== Sys2Proof/Certificates/Slice0/Obligations.lean ====
section
/-! DEFINITION. The statements about the machine that are to be proved. Each docstring names the rule
of spec/ it formalises, or the spec's decision and the log entry it rests on. -/

open Sys2Proof Sys2Proof.Machine

/-! ### Encoding -/

/-- 95_test_vectors.md, Part 1 W5 to W8 and Part 2 "Decode". -/
def Obligations.SpecSampleWordsDecode : Prop :=
  decodeWord 101 = .add 1 ∧ decodeWord 111 = .add 11 ∧ decodeWord 299 = .sub 99 ∧
  decodeWord 399 = .sta 99 ∧ decodeWord 500 = .lda 0 ∧ decodeWord 699 = .bra 99 ∧
  decodeWord 700 = .brz 0 ∧ decodeWord 899 = .brp 99 ∧ decodeWord 901 = .inp ∧
  decodeWord 902 = .out ∧ decodeWord 0 = .hlt ∧ decodeWord 23 = .hlt ∧ decodeWord 99 = .hlt ∧
  decodeWord 400 = .illegal400to499 400 ∧ decodeWord 900 = .illegal900 ∧
  decodeWord 903 = .illegal903to999 903

/-- 30_encoding.md R74. The decoder is a function of the word alone; what it rejects raises
`UnknownOpcode` for that word in whatever state. -/
def Obligations.DecoderFollowsTheDigits : Prop :=
  (∀ (w : Word) (a : Addr), a.val = w.val % 100 →
    decodeWord w =
      if w.val < 100 then .hlt
      else if w.val / 100 = 9 then
        if w.val = 901 then .inp
        else if w.val = 902 then .out
        else if w.val = 900 then .illegal900
        else .illegal903to999 w
      else if w.val / 100 = 1 then .add a
      else if w.val / 100 = 2 then .sub a
      else if w.val / 100 = 3 then .sta a
      else if w.val / 100 = 5 then .lda a
      else if w.val / 100 = 6 then .bra a
      else if w.val / 100 = 7 then .brz a
      else if w.val / 100 = 8 then .brp a
      else .illegal400to499 w) ∧
  (∀ (w : Word) (s : State), illegalWord w →
    exec (decodeWord w) s = .next (s.raise (.unknownOpcode w)))

/-- 30_encoding.md R82: for the instructions, and for whatever the assembler accepts for a mnemonic
other than DAT, which is that mnemonic's instruction with the same operand; and not for DAT. -/
def Obligations.DecodeInvertsGeneration : Prop :=
  (∀ i : Instr, i.wellFormed = true → (∀ v, i ≠ .dat v) → decodeWord (encode i) = i) ∧
  (∀ (line : Nat) (m : String) (arg : Option Nat) (i : Instr), isMnemonic m = true → m ≠ "DAT" →
    validate line m arg = .ok i → decodeWord (encode i) = i) ∧
  (∀ (line : Nat) (a : Addr),
    validate line "ADD" (some a.val) = .ok (.add a) ∧ validate line "SUB" (some a.val) = .ok (.sub a) ∧
    validate line "STA" (some a.val) = .ok (.sta a) ∧ validate line "LDA" (some a.val) = .ok (.lda a) ∧
    validate line "BRA" (some a.val) = .ok (.bra a) ∧ validate line "BRZ" (some a.val) = .ok (.brz a) ∧
    validate line "BRP" (some a.val) = .ok (.brp a) ∧ validate line "INP" none = .ok .inp ∧
    validate line "OUT" none = .ok .out ∧ validate line "HLT" none = .ok .hlt) ∧
  (∀ v : Word, decodeWord (encode (.dat v)) ≠ .dat v)

/-- 30_encoding.md R80 (the spec derives it): a word from 100 up is the only spelling of what it
decodes to. -/
def Obligations.LongWordsHaveOneSpelling : Prop :=
  (∀ w : Word, 100 ≤ w.val → encode (decodeWord w) = w) ∧
  (∀ (w u : Word), 100 ≤ w.val → decodeWord u = decodeWord w → u = w)

/-- 30_encoding.md R78, R81 (the spec derives them): every word decodes to a term of the opcode
table; a word decodes to a term of an illegal row, whatever word that term carries, exactly when it is
illegal; and the word carried is the word decoded (log entry 16). -/
def Obligations.EveryWordDecodesWellFormed : Prop :=
  ∀ w : Word, (decodeWord w).wellFormed = true ∧
    (illegalWord w ↔
      (∃ u, decodeWord w = .illegal400to499 u) ∨ decodeWord w = .illegal900 ∨
        ∃ u, decodeWord w = .illegal903to999 u) ∧
    (∀ u, decodeWord w = .illegal400to499 u → u = w) ∧
    (decodeWord w = .illegal900 → w = 900) ∧
    (∀ u, decodeWord w = .illegal903to999 u → u = w)

/-! ### Reset and load -/

/-- 10_state.md R39, the values the source gives. -/
def Obligations.ResetRunsFromCellZero : Prop :=
  State.reset.status = .running ∧ State.reset.pc = 0 ∧ State.reset.waiting = false ∧
  State.reset.output = [] ∧ State.reset.trace = []

/-- The reset values the spec chose itself (92_eei_decisions.md D2 and D3; log entries 3 and 4). -/
def Obligations.ResetAccumulatorFlagCells : Prop :=
  State.reset.acc = 0 ∧ State.reset.neg = false ∧ ∀ a : Addr, State.reset.mem.read a = 0

/-- 70_reset_and_hazards.md R210, R211, with the spec's own zero fill (D3) and reset of `acc` and
`neg` (D2). -/
def Obligations.BootLoadsAFittingImage : Prop :=
  ∀ (image : List Int) (debug : Bool) (answers : List Answer),
    image.length ≤ 100 → (∀ v ∈ image, 0 ≤ v ∧ v ≤ 999) →
    ∃ t, State.boot image debug answers = t ∧ t.status = .running ∧ t.pc = 0 ∧ t.acc = 0 ∧
      t.neg = false ∧ t.debug = debug ∧ t.answers = answers ∧ t.waiting = false ∧
      t.output = [] ∧ t.trace = [] ∧
      ∀ a : Addr, ((t.mem.read a).val : Int) = image.getD a.val 0

/-- 60_exceptions.md R184 with the spec's decision D3 and the model's log entry 20. -/
def Obligations.BadImageNeverRuns : Prop :=
  ∀ (image : List Int) (debug : Bool) (answers : List Answer),
    (100 < image.length ∨ ∃ v ∈ image, v < 0 ∨ 999 < v) →
    ∃ t, State.boot image debug answers = t ∧
      t.status = .faulted { kind := .imageInvalid image, fetchAddr := none } ∧
      (∀ a : Addr, t.mem.read a = State.reset.mem.read a) ∧ ∀ n, runWithin n t = t

/-- 20_memory.md R53: a load with an invalid value commits nothing (it answers no state), and no
instruction writes more than one cell: STA its operand, a DAT that spells a STA that STA's operand,
and every other cell, for every other instruction every cell, reads as before. -/
def Obligations.BulkWriteIsAllOrNothing : Prop :=
  (∀ (s : State) (image : List Int), (∃ v ∈ image, v < 0 ∨ 999 < v) →
    s.load image = .error (.imageInvalid image) ∧
    ∀ (debug : Bool) (answers : List Answer) (a : Addr),
      (State.boot image debug answers).mem.read a = State.reset.mem.read a) ∧
  (∀ (i : Instr) (s t : State) (b : Addr), exec i s = .next t →
    i ≠ .sta b → (∀ v, i = .dat v → decodeWord v ≠ .sta b) → t.mem.read b = s.mem.read b)

/-! ### The step -/

/-- 40_cycle.md R111, for a step whose advance commits: the word at `pc` decodes to a well-formed
instruction, and the step is its `exec` in the state with the snapshot emitted and `pc` advanced. -/
def Obligations.StepRunsTheDecodedInstruction : Prop :=
  ∀ (s : State) (p : Addr), s.AtFetch → p.val = s.pc.val + 1 →
    (decodeWord (s.mem.read s.pc)).wellFormed = true ∧
    step s = exec (decodeWord (s.mem.read s.pc)) (s.advanced p) ∧
    (s.advanced p).pc = p

/-- 40_cycle.md R112. -/
def Obligations.TheAdvanceComesFirst : Prop :=
  ∀ (s : State) (p : Addr), s.AtFetch → p.val = s.pc.val + 1 →
    step s = exec (decodeWord (s.mem.read s.pc)) (s.advanced p) ∧ (s.advanced p).pc = p ∧
    (∀ a : Addr,
      (decodeWord (s.mem.read s.pc) = .bra a →
        step s = .next { s.advanced p with pc := a }) ∧
      (decodeWord (s.mem.read s.pc) = .brz a →
        step s = .next { s.advanced p with pc := if s.acc = 0 then a else p }) ∧
      (decodeWord (s.mem.read s.pc) = .brp a →
        step s = .next { s.advanced p with pc := if s.neg = false then a else p }))

/-- 40_cycle.md R113: derived by the spec, its own decision D24 (log entry 12). Whatever word is in
cell 99, legal or not. -/
def Obligations.FetchFromCell99Faults : Prop :=
  ∀ s : State, s.status = .running → s.waiting = false → s.pc = 99 →
    step s = .next { s.traced with
      status := .faulted { kind := .invalidState .pc 100, fetchAddr := some 99 } }

/-- 60_exceptions.md R189: no instruction makes a stopped core run, and a faulted run never goes on. -/
def Obligations.FaultedRunsAreNeverResumed : Prop :=
  (∀ (i : Instr) (s t : State), exec i s = .next t → t.status = .running → s.status = .running) ∧
  (∀ (s : State) (f : FaultRecord), s.status = .faulted f →
    step s = .fault (.faulted f) ∧ ∀ n, runWithin n s = s)

/-- 60_exceptions.md, "Power and wait states": nothing wakes a halted core, its state survives, and the
input wait, the only one, ends exactly with the host's answer. The wait is said in the model's own
`answers` and `waiting` (log entries 6 and 7), and a step not taken is an outcome `fault` (log entry
5). -/
def Obligations.HaltedAndWaitingStates : Prop :=
  (∀ s : State, s.status = .halted → step s = .fault .halted ∧ ∀ n, runWithin n s = s) ∧
  (∀ s : State, s.status = .running → s.waiting = true →
    (s.answers = [] → step s = .fault .waitingForInput) ∧
    (s.answers ≠ [] → ∃ t, step s = .next t ∧ t.waiting = false)) ∧
  (∀ s : State, s.status = .running → (∀ t, step s ≠ .next t) →
    s.waiting = true ∧ s.answers = []) ∧
  (∀ s t : State, s.waiting = false → step s = .next t → t.waiting = true →
    decodeWord (s.mem.read s.pc) = .inp ∧ s.answers = [])

/-- 40_cycle.md, "Dispatch", as modelled: `exec` never stops. That rests on the model's choices that a
fault of the spec is a next state (log entry 5), that an INP with no answer leads to the state that
waits (log entry 7), that DAT runs as the word it spells (log entry 15) and that an illegal word
reaches `exec` as a term of its row (log entry 16). -/
def Obligations.EveryInstructionExecutes : Prop :=
  ∀ (i : Instr) (s : State), ∃ t, exec i s = .next t

/-- 44_io.md R162 with the model's own `waiting` (log entry 7): an INP that waited does what it would
have done with its answer at hand. -/
def Obligations.AnsweredWaitEqualsDirectInput : Prop :=
  (∀ s : State, s.status = .running → s.waiting = true → s.answers ≠ [] → step s = exec .inp s) ∧
  (∀ (s t : State) (x : Answer), s.status = .running → s.answers = [] → exec .inp s = .next t →
    step (t.supply [x]) = exec .inp (s.supply [x]))

/-! ### Checked assignment and the instructions -/

/-- 00_scope.md R12: in range it commits, else the field keeps its value and the fault names it. -/
def Obligations.CheckedAssignmentValidatesThenCommits : Prop :=
  ∀ (s : State) (v : Int),
    (∀ p : Addr, v = (p.val : Int) → s.commit (s.assignPc v) = .next { s with pc := p }) ∧
    (v < 0 ∨ 99 < v → s.commit (s.assignPc v) = .next (s.raise (.invalidState .pc v))) ∧
    (∀ w : Word, v = (w.val : Int) → s.commit (s.assignAcc v) = .next { s with acc := w }) ∧
    (v < 0 ∨ 999 < v → s.commit (s.assignAcc v) = .next (s.raise (.invalidState .acc v))) ∧
    (∀ (a : Addr) (w : Word), v = (w.val : Int) →
      s.commit (s.memWrite a v) = .next { s with mem := s.mem.write a w }) ∧
    (∀ a : Addr, v < 0 ∨ 999 < v →
      s.commit (s.memWrite a v) = .next (s.raise (.invalidState (.cell a) v))) ∧
    (∀ b : Bool, s.assignNeg b = { s with neg := b }) ∧
    (∀ k : FaultKind, (s.raise k).pc = s.pc ∧ (s.raise k).acc = s.acc ∧ (s.raise k).neg = s.neg ∧
      (s.raise k).mem = s.mem)

/-- 41_arithmetic.md, ADD, where the sum fits: exact sum, sign into `neg`, magnitude into `acc`,
nothing else written. A sum below `-999` cannot arise. -/
def Obligations.AddSplitsTheExactSum : Prop :=
  ∀ (a : Addr) (s : State) (r : Int),
    r = (if s.neg then -(s.acc.val : Int) else (s.acc.val : Int)) + ((s.mem.read a).val : Int) →
    -999 ≤ r ∧
    (r ≤ 999 → ∃ t, exec (.add a) s = .next t ∧ t = { s with acc := t.acc, neg := t.neg } ∧
      t.neg = decide (r < 0) ∧ (t.acc.val : Int) = |r| ∧ t.signed = r)

/-- 41_arithmetic.md, SUB, where the difference fits. A difference above 999 cannot arise. -/
def Obligations.SubSplitsTheExactDifference : Prop :=
  ∀ (a : Addr) (s : State) (r : Int),
    r = (if s.neg then -(s.acc.val : Int) else (s.acc.val : Int)) - ((s.mem.read a).val : Int) →
    r ≤ 999 ∧
    (-999 ≤ r → ∃ t, exec (.sub a) s = .next t ∧ t = { s with acc := t.acc, neg := t.neg } ∧
      t.neg = decide (r < 0) ∧ (t.acc.val : Int) = |r| ∧ t.signed = r)

/-- 60_exceptions.md, the ADD and SUB rows of the InvalidState table: the rejected magnitude is
recorded, `acc` keeps its value, and `neg` is already written (the spec's own decision D4, log entry
13). -/
def Obligations.ArithmeticOutOfRangeFaults : Prop :=
  ∀ (a : Addr) (s : State),
    (999 < s.signed + ((s.mem.read a).val : Int) →
      exec (.add a) s = .next { s with
        neg := false
        status := .faulted { kind := .invalidState .acc (s.signed + ((s.mem.read a).val : Int)),
                             fetchAddr := some s.fetchAddress } }) ∧
    (s.signed - ((s.mem.read a).val : Int) < -999 →
      exec (.sub a) s = .next { s with
        neg := true
        status := .faulted { kind := .invalidState .acc (-(s.signed - ((s.mem.read a).val : Int))),
                             fetchAddr := some s.fetchAddress } })

/-- 42_transfer.md, STA: the magnitude goes to cell `a`, the flag is neither stored nor changed, every
other cell is as before. That a fetch of `a` sees the value is the spec's own decision D13. -/
def Obligations.StoreWritesTheMagnitude : Prop :=
  ∀ (a : Addr) (s : State),
    (encode (.sta a)).val = 300 + a.val ∧ decodeWord (encode (.sta a)) = .sta a ∧
    ∃ t, exec (.sta a) s = .next t ∧ t = { s with mem := t.mem } ∧
      (s.mem.wf → t.mem.read a = s.acc ∧ ({ t with pc := a } : State).fetchWord = s.acc) ∧
      ∀ b : Addr, b ≠ a → t.mem.read b = s.mem.read b

/-- 42_transfer.md, LDA: the cell into `acc`, the flag cleared, nothing else written. -/
def Obligations.LoadCopiesTheCellAndClearsTheFlag : Prop :=
  ∀ (a : Addr) (s : State), (encode (.lda a)).val = 500 + a.val ∧
    exec (.lda a) s = .next { s with acc := s.mem.read a, neg := false }

/-- 43_branch.md, BRA: the target into `pc`; a BRA to its own cell loops with no change of state. 99 is
a legal target, whose fault comes in the next step: the spec's own decision D24 (log entry 12). -/
def Obligations.BranchAlwaysTakesTheTarget : Prop :=
  (∀ (a : Addr) (s : State), (encode (.bra a)).val = 600 + a.val ∧
    decodeWord (encode (.bra a)) = .bra a ∧ exec (.bra a) s = .next { s with pc := a }) ∧
  (∀ s t : State, s.status = .running → s.waiting = false → exec (.bra 99) s = .next t →
    step t = .next { t.traced with
      status := .faulted { kind := .invalidState .pc 100, fetchAddr := some 99 } }) ∧
  (∀ s : State, s.AtFetch → s.debug = false → (s.mem.read s.pc).val = 600 + s.pc.val →
    step s = .next s)

/-- 43_branch.md, BRZ: taken exactly when the magnitude is zero, negative zero included. Not taken
from cell 98 it leaves 99, where the next step faults: the spec's own decision D24 (log entry 12). -/
def Obligations.BranchIfZeroTestsTheMagnitude : Prop :=
  (∀ (a : Addr) (s : State), (encode (.brz a)).val = 700 + a.val ∧
    decodeWord (encode (.brz a)) = .brz a ∧
    exec (.brz a) s = .next { s with pc := if s.acc = 0 then a else s.pc }) ∧
  (∀ (a : Addr) (s : State), s.status = .running → s.waiting = false → s.pc = 98 →
    s.acc ≠ 0 → decodeWord (s.mem.read s.pc) = .brz a →
    ∃ t, step s = .next t ∧ t.pc = 99 ∧
      step t = .next { t.traced with
        status := .faulted { kind := .invalidState .pc 100, fetchAddr := some 99 } })

/-- 43_branch.md R152: taken exactly when the flag is clear, whatever the magnitude; so always right
after LDA. -/
def Obligations.BranchIfPositiveTestsTheFlag : Prop :=
  (∀ (a : Addr) (s : State), (encode (.brp a)).val = 800 + a.val ∧
    decodeWord (encode (.brp a)) = .brp a ∧
    exec (.brp a) s = .next { s with pc := if s.neg = false then a else s.pc }) ∧
  (∀ (a b : Addr) (s u : State), exec (.lda b) s = .next u →
    exec (.brp a) u = .next { u with pc := a })

/-- 44_io.md, INP on an integer in range (the host's answer in the model's `answers`, log entry 6):
`acc` takes it, the flag stays, and the answer is used up. -/
def Obligations.InputLoadsTheAnswer : Prop :=
  ∀ (s : State) (w : Word) (rest : List Answer), s.answers = .value (w.val : Int) :: rest →
    exec .inp s = .next { s with acc := w, answers := rest, waiting := false }

/-- 44_io.md, INP on an integer out of range (the spec's decision D14), and with no answer yet (the
model's `waiting`, log entry 7). -/
def Obligations.InputOutOfRangeOrUnanswered : Prop :=
  (∀ (s : State) (k : Int) (rest : List Answer), s.answers = .value k :: rest → k < 0 ∨ 999 < k →
    exec .inp s = .next { s with
      answers := rest
      waiting := false
      status := .faulted { kind := .invalidState .acc k, fetchAddr := some s.fetchAddress } }) ∧
  (∀ s : State, s.answers = [] → exec .inp s = .next { s with waiting := true })

/-- 60_exceptions.md R183: code, cause, that only INP raises it, that the run is over, and the state
at the fault. -/
def Obligations.ParseFailureIsFatal : Prop :=
  FaultKind.inputError.code = 3 ∧
  (∀ (s : State) (rest : List Answer), s.answers = .parseFailure :: rest →
    ∃ t f, exec .inp s = .next t ∧ t = { s with answers := rest, waiting := false, status := .faulted f } ∧
      f.kind = .inputError) ∧
  (∀ (s t : State) (f : FaultRecord), step s = .next t → t.status = .faulted f →
    f.kind = .inputError →
    (s.waiting = true ∨ decodeWord (s.mem.read s.pc) = .inp) ∧
    (∃ rest, s.answers = .parseFailure :: rest) ∧ t.acc = s.acc ∧ t.neg = s.neg ∧
    (s.waiting = false → t.pc.val = s.pc.val + 1) ∧ ∀ n, runWithin n t = t)

/-- 44_io.md, OUT sends the magnitude, without the sign (the spec's decision D15, log entry 14). -/
def Obligations.OutputEmitsTheMagnitude : Prop :=
  ∀ s : State, exec .out s = .next { s with output := s.output ++ [s.acc] }

/-- 44_io.md R163: the output is the values of the OUT steps, in order, and nothing else adds to it. -/
def Obligations.OutputIsTheSequenceOfOutSteps : Prop :=
  (∀ s : State, s.AtFetch → decodeWord (s.mem.read s.pc) = .out →
    ∃ t v, step s = .next t ∧ t.output = s.output ++ [v] ∧ v.val ≤ 999) ∧
  (∀ s t : State, step s = .next t →
    (s.waiting = true ∨ s.pc = 99 ∨ decodeWord (s.mem.read s.pc) ≠ .out) → t.output = s.output)

/-- 40_cycle.md R114: the status becomes Halted with `pc` advanced; no further fetch and no further
snapshot. -/
def Obligations.HaltStopsTheLoop : Prop :=
  (∀ s : State, exec .hlt s = .next { s with status := .halted }) ∧
  (∀ (s : State) (p : Addr), s.AtFetch → p.val = s.pc.val + 1 →
    decodeWord (s.mem.read s.pc) = .hlt →
    ∃ t, step s = .next t ∧ t = { s.advanced p with status := .halted } ∧
      step t = .fault .halted ∧ ∀ n, runWithin n t = t)

/-- 45_halt_data.md R171: the decoder has no DAT class, the assembler places the value (default 0),
and a fetched value runs as the word it is. -/
def Obligations.DataRunsAsItsWord : Prop :=
  (∀ w v : Word, decodeWord w ≠ .dat v) ∧
  (∀ v : Word, encode (.dat v) = v) ∧
  (∀ (labels : List (String × Nat)) (line : Nat), compileLine labels line ["DAT"] = .ok 0) ∧
  (∀ (labels : List (String × Nat)) (line : Nat) (t : String) (v : Word),
    parseNumber t = some v.val → compileLine labels line ["DAT", t] = .ok v) ∧
  (∀ (v : Word) (s : State), exec (.dat v) s = exec (decodeWord v) s) ∧
  (∀ (s : State) (p : Addr), s.AtFetch → p.val = s.pc.val + 1 →
    step s = exec (.dat (s.mem.read s.pc)) (s.advanced p)) ∧
  (∀ (v : Word) (s : State),
    (v.val ≤ 99 → exec (.dat v) s = .next { s with status := .halted }) ∧
    (v.val = 110 → exec (.dat v) s = exec (.add 10) s) ∧
    (v.val = 901 → exec (.dat v) s = exec .inp s) ∧
    (v.val = 902 → exec (.dat v) s = .next { s with output := s.output ++ [s.acc] }) ∧
    (illegalWord v → exec (.dat v) s = .next (s.raise (.unknownOpcode v))))

/-- The rows of illegal words (opcode table; the fault record with the fetch address is the spec's
decision D6, log entry 10): the status becomes Faulted and nothing else changes. -/
def Obligations.IllegalRowsRaise : Prop :=
  ∀ (s : State) (w : Word),
    exec (.illegal400to499 w) s = .next { s with
      status := .faulted { kind := .unknownOpcode w, fetchAddr := some s.fetchAddress } } ∧
    exec .illegal900 s = .next { s with
      status := .faulted { kind := .unknownOpcode 900, fetchAddr := some s.fetchAddress } } ∧
    exec (.illegal903to999 w) s = .next { s with
      status := .faulted { kind := .unknownOpcode w, fetchAddr := some s.fetchAddress } }

/-- 60_exceptions.md R181: code, exactly which words, after the advance, with the fetch address in
the record and `acc`, `neg` and memory unchanged. -/
def Obligations.UnknownOpcodeFault : Prop :=
  (∀ w : Word, (FaultKind.unknownOpcode w).code = 1) ∧
  (∀ (s : State) (p : Addr), s.AtFetch → p.val = s.pc.val + 1 → illegalWord (s.mem.read s.pc) →
    step s = .next { s.advanced p with
      status := .faulted { kind := .unknownOpcode (s.mem.read s.pc), fetchAddr := some s.pc } }) ∧
  (∀ (s t : State) (f : FaultRecord) (w : Word), step s = .next t → t.status = .faulted f →
    f.kind = .unknownOpcode w →
    w = s.mem.read s.pc ∧ illegalWord w ∧ f.fetchAddr = some s.pc ∧ t.pc.val = s.pc.val + 1 ∧
    t.acc = s.acc ∧ t.neg = s.neg ∧ t.mem = s.mem)

/-! ### Frames -/

/-- What ADD, SUB and LDA leave unchanged, whether or not ADD and SUB fault: all but `acc`, `neg` and
the status, and LDA the status too. Every cell reads as before. -/
def Obligations.ArithmeticAndLoadFrame : Prop :=
  ∀ (a : Addr) (s t : State),
    (exec (.add a) s = .next t → t = { s with acc := t.acc, neg := t.neg, status := t.status } ∧
      ∀ b : Addr, t.mem.read b = s.mem.read b) ∧
    (exec (.sub a) s = .next t → t = { s with acc := t.acc, neg := t.neg, status := t.status } ∧
      ∀ b : Addr, t.mem.read b = s.mem.read b) ∧
    (exec (.lda a) s = .next t → t = { s with acc := t.acc, neg := t.neg } ∧
      ∀ b : Addr, t.mem.read b = s.mem.read b)

/-- What STA leaves unchanged: all but the one cell it stores to, which is its operand. -/
def Obligations.StoreFrame : Prop :=
  ∀ (a : Addr) (s t : State), exec (.sta a) s = .next t →
    t = { s with mem := t.mem } ∧ ∀ b : Addr, b ≠ a → t.mem.read b = s.mem.read b

/-- What the branches, INP, OUT, HLT and the illegal rows leave unchanged. Every cell reads as
before; none of them writes `neg`. -/
def Obligations.BranchChannelAndHaltFrame : Prop :=
  (∀ (i : Instr) (a : Addr) (s t : State), i = .bra a ∨ i = .brz a ∨ i = .brp a →
    exec i s = .next t → t = { s with pc := t.pc } ∧ ∀ b : Addr, t.mem.read b = s.mem.read b) ∧
  (∀ s t : State, exec .inp s = .next t →
    t = { s with acc := t.acc, status := t.status, answers := t.answers, waiting := t.waiting } ∧
    ∀ b : Addr, t.mem.read b = s.mem.read b) ∧
  (∀ s t : State, exec .out s = .next t →
    t = { s with output := t.output } ∧ ∀ b : Addr, t.mem.read b = s.mem.read b) ∧
  (∀ (i : Instr) (w : Word) (s t : State),
    i = .hlt ∨ i = .illegal400to499 w ∨ i = .illegal900 ∨ i = .illegal903to999 w →
    exec i s = .next t → t = { s with status := t.status } ∧ ∀ b : Addr, t.mem.read b = s.mem.read b)

/-- 10_state.md, the table of the flag: a step that changes `neg` ran ADD, SUB or LDA, and what each of
these does to it. That ADD and SUB write it also when they fault is the spec's own decision D4 (log
entry 13). -/
def Obligations.OnlyArithmeticAndLoadWriteTheFlag : Prop :=
  (∀ s t : State, step s = .next t → t.neg ≠ s.neg →
    ∃ a : Addr, decodeWord (s.mem.read s.pc) = .add a ∨ decodeWord (s.mem.read s.pc) = .sub a ∨
      decodeWord (s.mem.read s.pc) = .lda a) ∧
  (∀ (a : Addr) (s t : State),
    (exec (.add a) s = .next t → t.neg = decide (s.signed + ((s.mem.read a).val : Int) < 0)) ∧
    (exec (.sub a) s = .next t → t.neg = decide (s.signed - ((s.mem.read a).val : Int) < 0)) ∧
    (exec (.lda a) s = .next t → t.neg = false))

/-! ### The whole machine -/

/-- Every step keeps the memory, and every snapshot's, in canonical form, so that equal memories are
equal data. -/
def Obligations.StepKeepsMemoryCanonical : Prop :=
  ∀ s t : State, s.MemoryCanonical → step s = .next t → t.MemoryCanonical

/-- 60_exceptions.md, the InvalidState table and the records of the other faults: from every state
whose status fits, a step leads to one whose status fits. So faults arise in exactly the places the
spec lists, with the value, the fetch address and the `pc` it gives, and no cell write ever faults. -/
def Obligations.StepKeepsStatusExact : Prop :=
  ∀ s t : State, s.StatusExact → step s = .next t → t.StatusExact

/-- Both invariants hold after reset with whatever image. -/
def Obligations.BootMeetsTheInvariants : Prop :=
  ∀ (image : List Int) (debug : Bool) (answers : List Answer),
    (State.boot image debug answers).MemoryCanonical ∧ (State.boot image debug answers).StatusExact

/-- Both invariants hold in the model's reset state. -/
def Obligations.ResetMeetsTheInvariants : Prop :=
  State.reset.MemoryCanonical ∧ State.reset.StatusExact

/-- 60_exceptions.md, "Debug", with the spec's own decision D22 on what a snapshot holds: a step that fetches emits one snapshot of the state before it exactly when
DEBUG is set, a step that does not emits none, and runs of states that differ only in DEBUG and trace
differ only there. -/
def Obligations.TheTraceChangesNothing : Prop :=
  (∀ s t : State, s.waiting = false → step s = .next t →
    t.trace = if s.debug then s.trace ++ [s.snapshot] else s.trace) ∧
  (∀ s t : State, s.waiting = true → step s = .next t → t.trace = s.trace) ∧
  (∀ (n : Nat) (s s' : State), s.withoutTrace = s'.withoutTrace →
    (runWithin n s).withoutTrace = (runWithin n s').withoutTrace)

/-- 10_state.md R25 (the spec derives it): a step into negative zero from outside it is an INP that
took the answer 0 with the flag set. -/
def Obligations.NegativeZeroComesOnlyFromInput : Prop :=
  ∀ s t : State, step s = .next t → t.NegativeZero → ¬ s.NegativeZero →
    s.neg = true ∧ (∃ rest, s.answers = .value 0 :: rest) ∧
    (s.waiting = true ∨ decodeWord (s.mem.read s.pc) = .inp)

/-- 20_memory.md R62, the spec's own decision D13: a STA to the next cell decides what the next step
runs. -/
def Obligations.TheNextFetchSeesTheStore : Prop :=
  ∀ (s : State) (p q : Addr), s.AtFetch → s.mem.wf → p.val = s.pc.val + 1 → q.val = p.val + 1 →
    decodeWord (s.mem.read s.pc) = .sta p →
    ∃ t, step s = .next t ∧ t.pc = p ∧ step t = exec (decodeWord s.acc) (t.advanced q)

/-- 10_state.md, "The BUDGET interface", and 40_cycle.md, "No step limit", with the spec's own decision
D21 and the model's log entries 7 and 18: the budget counts fetch cycles and is checked only between
them. A core that does not wait pays one unit for a step; going on with an INP that waited costs
nothing and is done even when the budget is spent. With the budget spent and no INP to go on with
nothing happens, and a core that takes no step keeps its state. A run stopped while a step is still
possible stands between fetch cycles with status Running, and under DEBUG has emitted one snapshot for
each unit. Stopping and going on is the run that was not stopped. -/
def Obligations.TheBudgetCountsFetchCycles : Prop :=
  (∀ s : State, s.waiting = false → runWithin 0 s = s) ∧
  (∀ (n : Nat) (s t : State), s.waiting = false → step s = .next t →
    runWithin (n + 1) s = runWithin n t) ∧
  (∀ (n : Nat) (s t : State), s.waiting = true → step s = .next t → runWithin n s = runWithin n t) ∧
  (∀ (n : Nat) (s : State), (∀ t, step s ≠ .next t) → runWithin n s = s) ∧
  (∀ (n : Nat) (s t : State), step (runWithin n s) = .next t →
    (runWithin n s).status = .running ∧ (runWithin n s).waiting = false ∧
    (s.debug = true → (runWithin n s).trace.length = s.trace.length + n)) ∧
  (∀ (m n : Nat) (s : State), runWithin (m + n) s = runWithin n (runWithin m s))

/-- 40_cycle.md R119 (the spec derives it): a run that ends successfully ended by a step that fetched
a HLT. -/
def Obligations.SuccessfulRunsEndInHalt : Prop :=
  ∀ s : State, s.status = .running → s.EndsSuccessfully →
    ∃ n, (runWithin n s).AtFetch ∧
      decodeWord ((runWithin n s).mem.read (runWithin n s).pc) = .hlt

/-- 40_cycle.md R119, 10_state.md R35: what STATUS shows is what a further step can do. A halted, a
faulted and a waiting core take none (log entries 5 and 7). -/
def Obligations.EndingTellsWhatAStepCanDo : Prop :=
  ∀ s : State,
    (s.ending = .running ↔ ∃ t, step s = .next t) ∧
    (s.ending = .halted ↔ step s = .fault .halted) ∧
    (∀ f : FaultRecord, s.ending = .faulted f ↔ step s = .fault (.faulted f)) ∧
    (s.ending = .waitingForInput ↔ step s = .fault .waitingForInput)

/-! ### The assembler -/

/-- 30_encoding.md R98, row by row, for whatever argument token resolves to the value, by spelling a
number or as a label. -/
def Obligations.OpcodeGeneration : Prop :=
  ∀ (labels : List (String × Nat)) (line : Nat),
    (∀ (t : String) (a : Addr), resolveArgument labels line [t] = .ok (some a.val) →
      compileLine labels line ["ADD", t] = .ok (addressWord 1 a) ∧
      compileLine labels line ["SUB", t] = .ok (addressWord 2 a) ∧
      compileLine labels line ["STA", t] = .ok (addressWord 3 a) ∧
      compileLine labels line ["LDA", t] = .ok (addressWord 5 a) ∧
      compileLine labels line ["BRA", t] = .ok (addressWord 6 a) ∧
      compileLine labels line ["BRZ", t] = .ok (addressWord 7 a) ∧
      compileLine labels line ["BRP", t] = .ok (addressWord 8 a)) ∧
    (∀ (c : Fin 10) (a : Addr), (addressWord c a).val = c.val * 100 + a.val) ∧
    compileLine labels line ["INP"] = .ok 901 ∧ compileLine labels line ["OUT"] = .ok 902 ∧
    compileLine labels line ["HLT"] = .ok 0 ∧ compileLine labels line ["DAT"] = .ok 0 ∧
    compileLine labels line [] = .ok 0 ∧
    (∀ (t : String) (v : Word), resolveArgument labels line [t] = .ok (some v.val) →
      compileLine labels line ["DAT", t] = .ok v)

/-- 30_encoding.md, "Argument resolution": an absent argument is none, a number is its value even where
a label of that spelling exists, any other token is a label's line, and a token that is neither ends
the assembly of its line. The last is the spec's own decision D17. -/
def Obligations.ArgumentsAreNumbersThenLabels : Prop :=
  ∀ (labels : List (String × Nat)) (line : Nat) (t : String),
    resolveArgument labels line [] = .ok none ∧
    (∀ n, parseNumber t = some n → resolveArgument labels line [t] = .ok (some n)) ∧
    (∀ n, parseNumber t = none → labelLine labels t = some n →
      resolveArgument labels line [t] = .ok (some n)) ∧
    (∀ m : String, isMnemonic m = true → parseNumber t = none → labelLine labels t = none →
      resolveArgument labels line [t] = .error (.unresolvedReference line t) ∧
      compileLine labels line [m, t] = .error (.unresolvedReference line t)) ∧
    (∀ a : Addr, parseNumber t = none → labelLine labels t = some a.val →
      compileLine labels line ["ADD", t] = .ok (addressWord 1 a) ∧
      compileLine labels line ["BRP", t] = .ok (addressWord 8 a))

/-- 30_encoding.md, "Label pass", with the spec's own decision D18: a token that is no mnemonic stands
for the last line it begins, and any other token for no line. -/
def Obligations.TheLastLabelDefinitionWins : Prop :=
  ∀ (program : List (List String)) (t : String) (n : Nat),
    labelLine (labelPass 0 program).1 t = some n ↔
      isMnemonic t = false ∧ (∃ ts, program[n]? = some (t :: ts)) ∧
      ∀ (m : Nat) (ts : List String), n < m → program[m]? ≠ some (t :: ts)

/-- 30_encoding.md R94. -/
def Obligations.LabelPassKeepsUnlabelledPrograms : Prop :=
  (∀ program : List (List String),
    (∀ l ∈ program, ∀ (t : String) (ts : List String), l = t :: ts → isMnemonic t = true) →
    labelPass 0 program = ([], program)) ∧
  (∀ (program : List (List String)) (t : String) (n : Nat),
    (t, n) ∈ (labelPass 0 program).1 ↔
      isMnemonic t = false ∧ ∃ ts, program[n]? = some (t :: ts))

/-- 30_encoding.md R99: one opcode a line, in order, each the line's own, and loaded from cell 0
upward. -/
def Obligations.AssembledImageIsPositional : Prop :=
  ∀ (program : List (List String)) (image : List Word), assemble program = .ok image →
    image.length = program.length ∧
    (∀ (n : Nat) (line : List String), (labelPass 0 program).2[n]? = some line →
      ∃ w, image[n]? = some w ∧ compileLine (labelPass 0 program).1 n line = .ok w) ∧
    (program.length ≤ 100 → ∀ (debug : Bool) (answers : List Answer) (a : Addr),
      ∀ w : Word, image[a.val]? = some w →
        (State.boot (image.map fun w => (w.val : Int)) debug answers).mem.read a = w)
end

