-- ==== Sys2Proof/Laws/Decode.lean ====
section
/-! SUPPORT. The small lemmas of the digits and of the class table. -/

namespace Sys2Proof

/-- The hundreds digit of a word. -/
theorem dig_two (w : Word) : dig 2 w.val = w.val / 100 := by
  unfold dig
  omega

/-- A short value is a word below 100 (30_encoding.md R72). -/
theorem ndig_lt_three (w : Word) : ndig w < 3 ↔ w.val < 100 := by
  unfold ndig
  repeat' split
  all_goals omega

@[simp] theorem operandOf_val (w : Word) : (operandOf w).val = w.val % 100 := rfl

@[simp] theorem addressWord_val (c : Fin 10) (a : Addr) :
    (addressWord c a).val = c.val * 100 + a.val := rfl

@[simp] theorem operandOf_addressWord (c : Fin 10) (a : Addr) : operandOf (addressWord c a) = a := by
  apply Fin.ext
  show (c.val * 100 + a.val) % 100 = a.val
  omega

end Sys2Proof
end

