-- ==== Sys2Proof/Laws/Memory.lean ====
section
/-! SUPPORT. The laws of memory: a read after a write, the untouched cells, and that every operation
keeps the canonical form. -/

namespace Sys2Proof.Machine

@[simp] theorem Memory.read_nil (a : Addr) : Memory.read [] a = 0 := rfl

theorem Memory.read_cons (b : Addr) (v : Word) (m : Memory) (a : Addr) :
    Memory.read ((b, v) :: m) a = if b = a then v else Memory.read m a := rfl

/-- The canonical form, entry by entry. -/
theorem Memory.wf_iff {m : Memory} :
    m.wf ↔ m.Pairwise (fun p q => p.1 < q.1) ∧ ∀ p ∈ m, p.2 ≠ Memory.unlisted := by
  simp [Memory.wf]

@[simp] theorem Memory.wf_nil : Memory.wf [] := ⟨List.Pairwise.nil, rfl⟩

theorem Memory.wf_cons {p : Addr × Word} {m : Memory} :
    Memory.wf (p :: m) ↔ (∀ q ∈ m, p.1 < q.1) ∧ p.2 ≠ Memory.unlisted ∧ m.wf := by
  rw [Memory.wf_iff, Memory.wf_iff, List.pairwise_cons, List.forall_mem_cons]
  tauto

/-- A list of higher cells does not name `a`. -/
theorem Memory.read_of_lt {m : Memory} {a : Addr} (h : ∀ p ∈ m, a < p.1) : Memory.read m a = 0 := by
  induction m with
  | nil => rfl
  | cons p m ih =>
    have hne : p.1 ≠ a := (ne_of_lt (h p (by simp))).symm
    rw [Memory.read_cons, if_neg hne]
    exact ih fun q hq => h q (by simp [hq])

theorem Memory.read_put_same {m : Memory} {a : Addr} (v : Word) (h : ∀ p ∈ m, a < p.1) :
    Memory.read (Memory.put a v m) a = v := by
  unfold Memory.put
  split
  · rename_i hv
    rw [Memory.read_of_lt h, hv]; rfl
  · simp [Memory.read_cons]

theorem Memory.read_put_other {a b : Addr} (v : Word) (m : Memory) (h : b ≠ a) :
    Memory.read (Memory.put a v m) b = Memory.read m b := by
  unfold Memory.put
  split
  · rfl
  · rw [Memory.read_cons, if_neg h.symm]

theorem Memory.wf_put {m : Memory} {a : Addr} (v : Word) (hm : m.wf) (h : ∀ p ∈ m, a < p.1) :
    (Memory.put a v m).wf := by
  unfold Memory.put
  split
  · exact hm
  · rename_i hv
    exact Memory.wf_cons.mpr ⟨h, hv, hm⟩

theorem Memory.wf_tail {p : Addr × Word} {m : Memory} (h : Memory.wf (p :: m)) : m.wf :=
  (Memory.wf_cons.mp h).2.2

theorem Memory.wf_head_lt {p : Addr × Word} {m : Memory} (h : Memory.wf (p :: m)) :
    ∀ q ∈ m, p.1 < q.1 := (Memory.wf_cons.mp h).1

/-- A read after a write to the same cell gives the value written. -/
theorem Memory.read_write_same {m : Memory} (hm : m.wf) (a : Addr) (v : Word) :
    (m.write a v).read a = v := by
  induction m with
  | nil => exact Memory.read_put_same v (by simp)
  | cons p m ih =>
    obtain ⟨b, u⟩ := p
    have hlt := Memory.wf_head_lt hm
    unfold Memory.write
    split
    · rename_i hab
      refine Memory.read_put_same v ?_
      intro q hq
      rcases List.mem_cons.mp hq with rfl | hq
      · exact hab
      · exact hab.trans (hlt q hq)
    · split
      · rename_i _ hab
        subst hab
        exact Memory.read_put_same v hlt
      · rename_i _ hab
        rw [Memory.read_cons, if_neg (Ne.symm hab)]
        exact ih (Memory.wf_tail hm)

/-- A write leaves every other cell alone, in any list. -/
theorem Memory.read_write_other (m : Memory) {a b : Addr} (v : Word) (h : b ≠ a) :
    (m.write a v).read b = m.read b := by
  induction m with
  | nil => exact Memory.read_put_other v [] h
  | cons p m ih =>
    obtain ⟨c, u⟩ := p
    unfold Memory.write
    split
    · exact Memory.read_put_other v _ h
    · split
      · rename_i _ hac
        subst hac
        rw [Memory.read_put_other v m h, Memory.read_cons, if_neg h.symm]
      · rw [Memory.read_cons, Memory.read_cons, ih]

/-- Every cell after a write. -/
theorem Memory.read_write {m : Memory} (hm : m.wf) (a b : Addr) (v : Word) :
    (m.write a v).read b = if b = a then v else m.read b := by
  split
  · rename_i h; rw [h, Memory.read_write_same hm]
  · rename_i h; exact Memory.read_write_other m v h

theorem Memory.mem_put {a : Addr} {v : Word} {m : Memory} {p : Addr × Word} (h : p ∈ Memory.put a v m) :
    p = (a, v) ∨ p ∈ m := by
  unfold Memory.put at h
  split at h
  · exact .inr h
  · exact List.mem_cons.mp h

theorem Memory.mem_write {m : Memory} {a : Addr} {v : Word} {p : Addr × Word} (h : p ∈ m.write a v) :
    p = (a, v) ∨ p ∈ m := by
  induction m with
  | nil => exact Memory.mem_put h
  | cons q m ih =>
    obtain ⟨b, u⟩ := q
    unfold Memory.write at h
    split at h
    · exact Memory.mem_put h
    · split at h
      · rcases Memory.mem_put h with h | h
        · exact .inl h
        · exact .inr (by simp [h])
      · rcases List.mem_cons.mp h with h | h
        · exact .inr (by simp [h])
        · rcases ih h with h | h
          · exact .inl h
          · exact .inr (by simp [h])

/-- A write keeps the canonical form. -/
theorem Memory.wf_write {m : Memory} (hm : m.wf) (a : Addr) (v : Word) : (m.write a v).wf := by
  induction m with
  | nil => exact Memory.wf_put v Memory.wf_nil (by simp)
  | cons p m ih =>
    obtain ⟨b, u⟩ := p
    have hlt := Memory.wf_head_lt hm
    unfold Memory.write
    split
    · rename_i hab
      refine Memory.wf_put v hm ?_
      intro q hq
      rcases List.mem_cons.mp hq with rfl | hq
      · exact hab
      · exact hab.trans (hlt q hq)
    · split
      · rename_i _ hab
        subst hab
        exact Memory.wf_put v (Memory.wf_tail hm) hlt
      · rename_i hab hne
        have hba : b < a := lt_of_le_of_ne (not_lt.mp hab) (Ne.symm hne)
        refine Memory.wf_cons.mpr ⟨?_, (Memory.wf_cons.mp hm).2.1, ih (Memory.wf_tail hm)⟩
        intro q hq
        rcases Memory.mem_write hq with rfl | hq
        · exact hba
        · exact hlt q hq

/-- The cells an image list places lie at `i` or above. -/
theorem Memory.le_of_mem_ofCells (ws : List Word) (i : Nat) :
    ∀ p ∈ Memory.ofCells i ws, i ≤ p.1.val := by
  induction ws generalizing i with
  | nil => simp [Memory.ofCells]
  | cons w ws ih =>
    intro p hp
    unfold Memory.ofCells at hp
    split at hp
    · rcases Memory.mem_put hp with rfl | hp
      · exact le_refl i
      · exact Nat.le_of_succ_le (ih (i + 1) p hp)
    · simp at hp

/-- The loaded memory is in canonical form. -/
theorem Memory.wf_ofCells (ws : List Word) (i : Nat) : (Memory.ofCells i ws).wf := by
  induction ws generalizing i with
  | nil => exact Memory.wf_nil
  | cons w ws ih =>
    unfold Memory.ofCells
    split
    · exact Memory.wf_put w (ih (i + 1)) fun p hp => Memory.le_of_mem_ofCells ws (i + 1) p hp
    · exact Memory.wf_nil

/-- Every cell of the loaded memory: the image's value there, else 0. -/
theorem Memory.read_ofCells (ws : List Word) (i : Nat) (a : Addr) (h : i ≤ a.val) :
    (Memory.ofCells i ws).read a = ws.getD (a.val - i) 0 := by
  induction ws generalizing i with
  | nil => simp [Memory.ofCells]
  | cons w ws ih =>
    have hi : i < 100 := lt_of_le_of_lt h a.isLt
    unfold Memory.ofCells
    rw [dif_pos hi]
    by_cases hia : i = a.val
    · have ha : (⟨i, hi⟩ : Addr) = a := Fin.ext hia
      rw [ha, Memory.read_put_same w]
      · simp [hia]
      · intro p hp
        have := Memory.le_of_mem_ofCells ws (i + 1) p hp
        show a.val < p.1.val
        omega
    · rw [Memory.read_put_other w _ (fun hne => hia (by rw [hne])), ih (i + 1) (by omega)]
      obtain ⟨k, hk⟩ : ∃ k, a.val - i = k + 1 := ⟨a.val - i - 1, by omega⟩
      rw [hk, show a.val - (i + 1) = k by omega]
      simp

end Sys2Proof.Machine
end

