-- ==== Sys2Proof/Laws/State.lean ====
section
/-! SUPPORT. One lemma per field per update of the state, so that no later proof unfolds a record
update. -/

namespace Sys2Proof.Machine

variable (s : State)

@[simp] theorem State.raiseAt_status (fa : Option Addr) (k : FaultKind) : (s.raiseAt fa k).status = .faulted { kind := k, fetchAddr := fa } := rfl
@[simp] theorem State.raiseAt_pc (fa : Option Addr) (k : FaultKind) : (s.raiseAt fa k).pc = s.pc := rfl
@[simp] theorem State.raiseAt_acc (fa : Option Addr) (k : FaultKind) : (s.raiseAt fa k).acc = s.acc := rfl
@[simp] theorem State.raiseAt_neg (fa : Option Addr) (k : FaultKind) : (s.raiseAt fa k).neg = s.neg := rfl
@[simp] theorem State.raiseAt_mem (fa : Option Addr) (k : FaultKind) : (s.raiseAt fa k).mem = s.mem := rfl
@[simp] theorem State.raiseAt_debug (fa : Option Addr) (k : FaultKind) : (s.raiseAt fa k).debug = s.debug := rfl
@[simp] theorem State.raiseAt_answers (fa : Option Addr) (k : FaultKind) : (s.raiseAt fa k).answers = s.answers := rfl
@[simp] theorem State.raiseAt_waiting (fa : Option Addr) (k : FaultKind) : (s.raiseAt fa k).waiting = s.waiting := rfl
@[simp] theorem State.raiseAt_output (fa : Option Addr) (k : FaultKind) : (s.raiseAt fa k).output = s.output := rfl
@[simp] theorem State.raiseAt_trace (fa : Option Addr) (k : FaultKind) : (s.raiseAt fa k).trace = s.trace := rfl

@[simp] theorem State.raise_status (k : FaultKind) : (s.raise k).status = .faulted { kind := k, fetchAddr := some s.fetchAddress } := rfl
@[simp] theorem State.raise_pc (k : FaultKind) : (s.raise k).pc = s.pc := rfl
@[simp] theorem State.raise_acc (k : FaultKind) : (s.raise k).acc = s.acc := rfl
@[simp] theorem State.raise_neg (k : FaultKind) : (s.raise k).neg = s.neg := rfl
@[simp] theorem State.raise_mem (k : FaultKind) : (s.raise k).mem = s.mem := rfl
@[simp] theorem State.raise_debug (k : FaultKind) : (s.raise k).debug = s.debug := rfl
@[simp] theorem State.raise_answers (k : FaultKind) : (s.raise k).answers = s.answers := rfl
@[simp] theorem State.raise_waiting (k : FaultKind) : (s.raise k).waiting = s.waiting := rfl
@[simp] theorem State.raise_output (k : FaultKind) : (s.raise k).output = s.output := rfl
@[simp] theorem State.raise_trace (k : FaultKind) : (s.raise k).trace = s.trace := rfl

@[simp] theorem State.assignNeg_status (b : Bool) : (s.assignNeg b).status = s.status := rfl
@[simp] theorem State.assignNeg_pc (b : Bool) : (s.assignNeg b).pc = s.pc := rfl
@[simp] theorem State.assignNeg_acc (b : Bool) : (s.assignNeg b).acc = s.acc := rfl
@[simp] theorem State.assignNeg_neg (b : Bool) : (s.assignNeg b).neg = b := rfl
@[simp] theorem State.assignNeg_mem (b : Bool) : (s.assignNeg b).mem = s.mem := rfl
@[simp] theorem State.assignNeg_debug (b : Bool) : (s.assignNeg b).debug = s.debug := rfl
@[simp] theorem State.assignNeg_answers (b : Bool) : (s.assignNeg b).answers = s.answers := rfl
@[simp] theorem State.assignNeg_waiting (b : Bool) : (s.assignNeg b).waiting = s.waiting := rfl
@[simp] theorem State.assignNeg_output (b : Bool) : (s.assignNeg b).output = s.output := rfl
@[simp] theorem State.assignNeg_trace (b : Bool) : (s.assignNeg b).trace = s.trace := rfl

@[simp] theorem State.emit_status (v : Word) : (s.emit v).status = s.status := rfl
@[simp] theorem State.emit_pc (v : Word) : (s.emit v).pc = s.pc := rfl
@[simp] theorem State.emit_acc (v : Word) : (s.emit v).acc = s.acc := rfl
@[simp] theorem State.emit_neg (v : Word) : (s.emit v).neg = s.neg := rfl
@[simp] theorem State.emit_mem (v : Word) : (s.emit v).mem = s.mem := rfl
@[simp] theorem State.emit_debug (v : Word) : (s.emit v).debug = s.debug := rfl
@[simp] theorem State.emit_answers (v : Word) : (s.emit v).answers = s.answers := rfl
@[simp] theorem State.emit_waiting (v : Word) : (s.emit v).waiting = s.waiting := rfl
@[simp] theorem State.emit_output (v : Word) : (s.emit v).output = s.output ++ [v] := rfl
@[simp] theorem State.emit_trace (v : Word) : (s.emit v).trace = s.trace := rfl

@[simp] theorem State.awaitInput_status : (s.awaitInput).status = s.status := rfl
@[simp] theorem State.awaitInput_pc : (s.awaitInput).pc = s.pc := rfl
@[simp] theorem State.awaitInput_acc : (s.awaitInput).acc = s.acc := rfl
@[simp] theorem State.awaitInput_neg : (s.awaitInput).neg = s.neg := rfl
@[simp] theorem State.awaitInput_mem : (s.awaitInput).mem = s.mem := rfl
@[simp] theorem State.awaitInput_debug : (s.awaitInput).debug = s.debug := rfl
@[simp] theorem State.awaitInput_answers : (s.awaitInput).answers = s.answers := rfl
@[simp] theorem State.awaitInput_waiting : (s.awaitInput).waiting = true := rfl
@[simp] theorem State.awaitInput_output : (s.awaitInput).output = s.output := rfl
@[simp] theorem State.awaitInput_trace : (s.awaitInput).trace = s.trace := rfl

@[simp] theorem State.supply_status (xs : List Answer) : (s.supply xs).status = s.status := rfl
@[simp] theorem State.supply_pc (xs : List Answer) : (s.supply xs).pc = s.pc := rfl
@[simp] theorem State.supply_acc (xs : List Answer) : (s.supply xs).acc = s.acc := rfl
@[simp] theorem State.supply_neg (xs : List Answer) : (s.supply xs).neg = s.neg := rfl
@[simp] theorem State.supply_mem (xs : List Answer) : (s.supply xs).mem = s.mem := rfl
@[simp] theorem State.supply_debug (xs : List Answer) : (s.supply xs).debug = s.debug := rfl
@[simp] theorem State.supply_answers (xs : List Answer) : (s.supply xs).answers = s.answers ++ xs := rfl
@[simp] theorem State.supply_waiting (xs : List Answer) : (s.supply xs).waiting = s.waiting := rfl
@[simp] theorem State.supply_output (xs : List Answer) : (s.supply xs).output = s.output := rfl
@[simp] theorem State.supply_trace (xs : List Answer) : (s.supply xs).trace = s.trace := rfl

@[simp] theorem State.unknownOpcode_status (w : Word) : (s.unknownOpcode w).status = .faulted { kind := .unknownOpcode w, fetchAddr := some s.fetchAddress } := rfl
@[simp] theorem State.unknownOpcode_pc (w : Word) : (s.unknownOpcode w).pc = s.pc := rfl
@[simp] theorem State.unknownOpcode_acc (w : Word) : (s.unknownOpcode w).acc = s.acc := rfl
@[simp] theorem State.unknownOpcode_neg (w : Word) : (s.unknownOpcode w).neg = s.neg := rfl
@[simp] theorem State.unknownOpcode_mem (w : Word) : (s.unknownOpcode w).mem = s.mem := rfl
@[simp] theorem State.unknownOpcode_debug (w : Word) : (s.unknownOpcode w).debug = s.debug := rfl
@[simp] theorem State.unknownOpcode_answers (w : Word) : (s.unknownOpcode w).answers = s.answers := rfl
@[simp] theorem State.unknownOpcode_waiting (w : Word) : (s.unknownOpcode w).waiting = s.waiting := rfl
@[simp] theorem State.unknownOpcode_output (w : Word) : (s.unknownOpcode w).output = s.output := rfl
@[simp] theorem State.unknownOpcode_trace (w : Word) : (s.unknownOpcode w).trace = s.trace := rfl

@[simp] theorem State.traced_status : s.traced.status = s.status := by
  unfold State.traced; split <;> rfl
@[simp] theorem State.traced_pc : s.traced.pc = s.pc := by
  unfold State.traced; split <;> rfl
@[simp] theorem State.traced_acc : s.traced.acc = s.acc := by
  unfold State.traced; split <;> rfl
@[simp] theorem State.traced_neg : s.traced.neg = s.neg := by
  unfold State.traced; split <;> rfl
@[simp] theorem State.traced_mem : s.traced.mem = s.mem := by
  unfold State.traced; split <;> rfl
@[simp] theorem State.traced_debug : s.traced.debug = s.debug := by
  unfold State.traced; split <;> rfl
@[simp] theorem State.traced_answers : s.traced.answers = s.answers := by
  unfold State.traced; split <;> rfl
@[simp] theorem State.traced_waiting : s.traced.waiting = s.waiting := by
  unfold State.traced; split <;> rfl
@[simp] theorem State.traced_output : s.traced.output = s.output := by
  unfold State.traced; split <;> rfl
@[simp] theorem State.traced_trace :
    s.traced.trace = if s.debug then s.trace ++ [s.snapshot] else s.trace := by
  unfold State.traced; split <;> rfl

@[simp] theorem State.advanced_status (p : Addr) : (s.advanced p).status = s.status := s.traced_status
@[simp] theorem State.advanced_pc (p : Addr) : (s.advanced p).pc = p := rfl
@[simp] theorem State.advanced_acc (p : Addr) : (s.advanced p).acc = s.acc := s.traced_acc
@[simp] theorem State.advanced_neg (p : Addr) : (s.advanced p).neg = s.neg := s.traced_neg
@[simp] theorem State.advanced_mem (p : Addr) : (s.advanced p).mem = s.mem := s.traced_mem
@[simp] theorem State.advanced_debug (p : Addr) : (s.advanced p).debug = s.debug := s.traced_debug
@[simp] theorem State.advanced_answers (p : Addr) : (s.advanced p).answers = s.answers := s.traced_answers
@[simp] theorem State.advanced_waiting (p : Addr) : (s.advanced p).waiting = s.waiting := s.traced_waiting
@[simp] theorem State.advanced_output (p : Addr) : (s.advanced p).output = s.output := s.traced_output
@[simp] theorem State.advanced_trace (p : Addr) :
    (s.advanced p).trace = if s.debug then s.trace ++ [s.snapshot] else s.trace := s.traced_trace

@[simp] theorem State.withoutTrace_status : s.withoutTrace.status = s.status := rfl
@[simp] theorem State.withoutTrace_pc : s.withoutTrace.pc = s.pc := rfl
@[simp] theorem State.withoutTrace_acc : s.withoutTrace.acc = s.acc := rfl
@[simp] theorem State.withoutTrace_neg : s.withoutTrace.neg = s.neg := rfl
@[simp] theorem State.withoutTrace_mem : s.withoutTrace.mem = s.mem := rfl
@[simp] theorem State.withoutTrace_debug : s.withoutTrace.debug = false := rfl
@[simp] theorem State.withoutTrace_answers : s.withoutTrace.answers = s.answers := rfl
@[simp] theorem State.withoutTrace_waiting : s.withoutTrace.waiting = s.waiting := rfl
@[simp] theorem State.withoutTrace_output : s.withoutTrace.output = s.output := rfl
@[simp] theorem State.withoutTrace_trace : s.withoutTrace.trace = [] := rfl

@[simp] theorem State.fetchAddress_val : s.fetchAddress.val = s.pc.val - 1 := rfl

end Sys2Proof.Machine
end

