-- ==== Sys2Proof/Laws/Ops.lean ====
section
/-! SUPPORT. One lemma for each shared operation that says everything it can answer; later proofs
cite these instead of unfolding the operation. -/

namespace Sys2Proof.Machine

/-! ### Checked values -/

@[simp] theorem wordOfInt_val (w : Word) : wordOfInt (w.val : Int) = some w := by
  unfold wordOfInt
  rw [dif_pos (by omega)]
  simp

@[simp] theorem addrOfInt_val (a : Addr) : addrOfInt (a.val : Int) = some a := by
  unfold addrOfInt
  rw [dif_pos (by omega)]
  simp

theorem wordOfInt_eq_some {v : Int} {w : Word} : wordOfInt v = some w ↔ v = (w.val : Int) := by
  constructor
  · intro h
    unfold wordOfInt at h
    split at h
    · cases h; simp; omega
    · cases h
  · rintro rfl; exact wordOfInt_val w

theorem addrOfInt_eq_some {v : Int} {a : Addr} : addrOfInt v = some a ↔ v = (a.val : Int) := by
  constructor
  · intro h
    unfold addrOfInt at h
    split at h
    · cases h; simp; omega
    · cases h
  · rintro rfl; exact addrOfInt_val a

theorem wordOfInt_eq_none {v : Int} : wordOfInt v = none ↔ v < 0 ∨ 999 < v := by
  unfold wordOfInt
  split
  · simp; omega
  · simp; omega

theorem addrOfInt_eq_none {v : Int} : addrOfInt v = none ↔ v < 0 ∨ 99 < v := by
  unfold addrOfInt
  split
  · simp; omega
  · simp; omega

/-! ### Checked assignment -/

variable (s : State)

@[simp] theorem State.assignPc_addr (a : Addr) : s.assignPc (a.val : Int) = .ok { s with pc := a } := by
  simp [State.assignPc]

@[simp] theorem State.assignAcc_word (w : Word) :
    s.assignAcc (w.val : Int) = .ok { s with acc := w } := by
  simp [State.assignAcc]

@[simp] theorem State.memWrite_word (a : Addr) (w : Word) :
    s.memWrite a (w.val : Int) = .ok { s with mem := s.mem.write a w } := by
  simp [State.memWrite]

theorem State.assignPc_error {v : Int} (h : v < 0 ∨ 99 < v) :
    s.assignPc v = .error (.invalidState .pc v) := by
  simp [State.assignPc, addrOfInt_eq_none.mpr h]

theorem State.assignAcc_error {v : Int} (h : v < 0 ∨ 999 < v) :
    s.assignAcc v = .error (.invalidState .acc v) := by
  simp [State.assignAcc, wordOfInt_eq_none.mpr h]

/-- All a checked write of the accumulator can answer. -/
theorem State.assignAcc_cases (v : Int) :
    (∃ w : Word, v = (w.val : Int) ∧ s.assignAcc v = .ok { s with acc := w }) ∨
    ((v < 0 ∨ 999 < v) ∧ s.assignAcc v = .error (.invalidState .acc v)) := by
  rcases h : wordOfInt v with _ | w
  · exact .inr ⟨wordOfInt_eq_none.mp h, s.assignAcc_error (wordOfInt_eq_none.mp h)⟩
  · obtain rfl := wordOfInt_eq_some.mp h
    exact .inl ⟨w, rfl, s.assignAcc_word w⟩

@[simp] theorem State.commit_ok (t : State) : s.commit (.ok t) = .next t := rfl
@[simp] theorem State.commit_error (k : FaultKind) : s.commit (.error k) = .next (s.raise k) := rfl

/-- A taken branch always commits (43_branch.md R150). -/
@[simp] theorem State.branchTo_eq (a : Addr) : s.branchTo a = .next { s with pc := a } := by
  simp [State.branchTo]

/-- All the split of an exact result can answer. -/
theorem State.splitResult_cases (r : Int) :
    (∃ w : Word, (r.natAbs : Int) = (w.val : Int) ∧
      s.splitResult r = .next { s with neg := negativeFlag r, acc := w }) ∨
    (999 < r.natAbs ∧ s.splitResult r =
      .next ((s.assignNeg (negativeFlag r)).raise (.invalidState .acc (r.natAbs : Int)))) := by
  unfold State.splitResult
  rcases (s.assignNeg (negativeFlag r)).assignAcc_cases (r.natAbs : Int) with ⟨w, hw, h⟩ | ⟨hr, h⟩
  · exact .inl ⟨w, hw, by rw [h]; rfl⟩
  · exact .inr ⟨by omega, by rw [h]; rfl⟩

/-! ### Input -/

/-- `Input()` finds no answer exactly where the host gave none. -/
theorem State.takeAnswer_nil (h : s.answers = []) : s.takeAnswer = none := by
  simp [State.takeAnswer, h]

theorem State.takeAnswer_cons {x : Answer} {rest : List Answer} (h : s.answers = x :: rest) :
    s.takeAnswer = some (x, { s with answers := rest, waiting := false }) := by
  simp [State.takeAnswer, h]

/-- All an answer can lead to (44_io.md R160). -/
theorem State.acceptAnswer_cases (x : Answer) :
    (x = .parseFailure ∧ s.acceptAnswer x = .next (s.raise .inputError)) ∨
    (∃ w : Word, x = .value (w.val : Int) ∧ s.acceptAnswer x = .next { s with acc := w }) ∨
    (∃ k : Int, (k < 0 ∨ 999 < k) ∧ x = .value k ∧
      s.acceptAnswer x = .next (s.raise (.invalidState .acc k))) := by
  cases x with
  | parseFailure => exact .inl ⟨rfl, rfl⟩
  | value k =>
    rcases s.assignAcc_cases k with ⟨w, rfl, h⟩ | ⟨hk, h⟩
    · exact .inr (.inl ⟨w, rfl, by simp [State.acceptAnswer]⟩)
    · exact .inr (.inr ⟨k, hk, rfl, by simp [State.acceptAnswer, h]⟩)

/-! ### The cycle -/

/-- The advance commits below 99. -/
theorem State.advance_ok {p : Addr} (h : p.val = s.pc.val + 1) : s.advance = .ok { s with pc := p } := by
  unfold State.advance
  rw [show (s.pc.val : Int) + 1 = (p.val : Int) by omega]
  exact s.assignPc_addr p

/-- The advance from 99 raises, and writes nothing (40_cycle.md R113). -/
theorem State.advance_error (h : s.pc = 99) : s.advance = .error (.invalidState .pc 100) := by
  unfold State.advance
  rw [h]
  exact s.assignPc_error (.inr (by decide))

end Sys2Proof.Machine
end

