-- ==== Sys2Proof/Laws/Exec.lean ====
section
/-! SUPPORT. What executing an instruction can lead to, and what a step can do, said once: the
invariants of the machine follow from these two lemmas. -/

namespace Sys2Proof.Machine

/-- `r` is the exact result of the arithmetic instruction `i` in `s` (41_arithmetic.md R130, R131). -/
def ExactResult (i : Instr) (s : State) (r : Int) : Prop :=
  (∃ a, i = .add a ∧ r = s.signed + s.operand a) ∨ (∃ a, i = .sub a ∧ r = s.signed - s.operand a)

/-- The state in which INP acts on an answer: the answer taken, no request outstanding. -/
def State.answered (s : State) (rest : List Answer) : State :=
  { s with answers := rest, waiting := false }

/-- All that executing an instruction other than DAT can lead to, one case for each way its handler
can end. A DAT executes as the instruction its word decodes to. -/
inductive ExecCase (i : Instr) (s : State) : State → Prop where
  | arith (r : Int) (w : Word) (hi : ExactResult i s r) (hw : (r.natAbs : Int) = (w.val : Int)) :
      ExecCase i s { s with neg := negativeFlag r, acc := w }
  | arithFault (r : Int) (hi : ExactResult i s r) (hr : 999 < r.natAbs) :
      ExecCase i s ((s.assignNeg (negativeFlag r)).raise (.invalidState .acc (r.natAbs : Int)))
  | store (a : Addr) (hi : i = .sta a) : ExecCase i s { s with mem := s.mem.write a s.acc }
  | load (a : Addr) (hi : i = .lda a) : ExecCase i s { s with acc := s.mem.read a, neg := false }
  | branch (a : Addr) (hi : i = .bra a ∨ i = .brz a ∧ s.acc = 0 ∨ i = .brp a ∧ s.neg = false) :
      ExecCase i s { s with pc := a }
  | noBranch (a : Addr) (hi : i = .brz a ∧ s.acc ≠ 0 ∨ i = .brp a ∧ s.neg = true) : ExecCase i s s
  | await (hi : i = .inp) (ha : s.answers = []) : ExecCase i s s.awaitInput
  | parseFailure (rest : List Answer) (hi : i = .inp) (ha : s.answers = .parseFailure :: rest) :
      ExecCase i s ((s.answered rest).raise .inputError)
  | input (w : Word) (rest : List Answer) (hi : i = .inp)
      (ha : s.answers = .value (w.val : Int) :: rest) :
      ExecCase i s { s.answered rest with acc := w }
  | inputFault (k : Int) (rest : List Answer) (hi : i = .inp) (hk : k < 0 ∨ 999 < k)
      (ha : s.answers = .value k :: rest) :
      ExecCase i s ((s.answered rest).raise (.invalidState .acc k))
  | output (hi : i = .out) : ExecCase i s (s.emit s.acc)
  | halt (hi : i = .hlt) : ExecCase i s { s with status := .halted }
  | illegal (w : Word)
      (hi : i = .illegal400to499 w ∨ i = .illegal900 ∧ w = 900 ∨ i = .illegal903to999 w) :
      ExecCase i s (s.raise (.unknownOpcode w))

/-- The split of an exact result ends in one of the two arithmetic cases. -/
theorem splitResult_case {i : Instr} {s : State} {r : Int} (hi : ExactResult i s r) :
    ∃ t, s.splitResult r = .next t ∧ ExecCase i s t := by
  rcases s.splitResult_cases r with ⟨w, hw, h⟩ | ⟨hr, h⟩
  · exact ⟨_, h, .arith r w hi hw⟩
  · exact ⟨_, h, .arithFault r hi hr⟩

/-- INP ends in one of its four cases. -/
theorem execInp_case (s : State) : ∃ t, execInp s = .next t ∧ ExecCase .inp s t := by
  unfold execInp
  rcases ha : s.answers with _ | ⟨x, rest⟩
  · rw [s.takeAnswer_nil ha]
    exact ⟨_, rfl, .await rfl ha⟩
  · rw [s.takeAnswer_cons ha]
    rcases (s.answered rest).acceptAnswer_cases x with ⟨rfl, h⟩ | ⟨w, rfl, h⟩ | ⟨k, hk, rfl, h⟩
    · exact ⟨_, h, .parseFailure rest rfl ha⟩
    · exact ⟨_, h, .input w rest rfl ha⟩
    · exact ⟨_, h, .inputFault k rest rfl hk ha⟩

/-- Executing an instruction other than DAT answers a next state, in one of the cases. -/
theorem exec_case (i : Instr) (s : State) (hd : ∀ v, i ≠ .dat v) :
    ∃ t, exec i s = .next t ∧ ExecCase i s t := by
  cases i with
  | add a => exact splitResult_case (.inl ⟨a, rfl, rfl⟩)
  | sub a => exact splitResult_case (.inr ⟨a, rfl, rfl⟩)
  | sta a => exact ⟨_, by simp [exec, execSta], .store a rfl⟩
  | lda a => exact ⟨_, by simp [exec, execLda, State.operand, State.assignNeg], .load a rfl⟩
  | bra a => exact ⟨_, s.branchTo_eq a, .branch a (.inl rfl)⟩
  | brz a =>
    by_cases h : s.acc = 0
    · exact ⟨_, by simp [exec, execBrz, h], .branch a (.inr (.inl ⟨rfl, h⟩))⟩
    · exact ⟨_, by simp [exec, execBrz, h], .noBranch a (.inl ⟨rfl, h⟩)⟩
  | brp a =>
    by_cases h : s.neg = false
    · exact ⟨_, by simp only [exec, execBrp, if_pos h, State.branchTo_eq], .branch a (.inr (.inr ⟨rfl, h⟩))⟩
    · exact ⟨_, by simp only [exec, execBrp, if_neg h], .noBranch a (.inr ⟨rfl, by simpa using h⟩)⟩
  | inp => exact execInp_case s
  | out => exact ⟨_, rfl, .output rfl⟩
  | hlt => exact ⟨_, rfl, .halt rfl⟩
  | dat v => exact absurd rfl (hd v)
  | illegal400to499 w => exact ⟨_, rfl, .illegal w (.inl rfl)⟩
  | illegal900 => exact ⟨_, rfl, .illegal 900 (.inr (.inl ⟨rfl, rfl⟩))⟩
  | illegal903to999 w => exact ⟨_, rfl, .illegal w (.inr (.inr rfl))⟩

/-- The inversion of `exec`: a next state it answers is one of the cases. -/
theorem exec_inversion {i : Instr} {s t : State} (hd : ∀ v, i ≠ .dat v) (h : exec i s = .next t) :
    ExecCase i s t := by
  obtain ⟨t', h', hc⟩ := exec_case i s hd
  rw [h] at h'
  cases h'
  exact hc

/-- The three ways a step can answer a next state: an INP goes on with its answer, the advance from
99 faults, or the fetched word executes after the advance (40_cycle.md R111). -/
theorem step_inversion {s t : State} (h : step s = .next t) :
    s.status = .running ∧
    ((s.waiting = true ∧ s.answers ≠ [] ∧ execInp s = .next t) ∨
     (s.waiting = false ∧ s.pc = 99 ∧ t = s.traced.raiseAt (some 99) (.invalidState .pc 100)) ∨
     (s.AtFetch ∧ ∃ p : Addr, p.val = s.pc.val + 1 ∧
        exec (decodeWord (s.mem.read s.pc)) (s.advanced p) = .next t)) := by
  unfold step at h
  split at h
  · cases h
  · cases h
  · rename_i hr
    refine ⟨hr, ?_⟩
    split at h
    · rename_i hw
      rcases ha : s.answers with _ | ⟨x, rest⟩
      · rw [resumeInp, s.takeAnswer_nil ha] at h
        cases h
      · rw [resumeInp, s.takeAnswer_cons ha] at h
        exact .inl ⟨hw, by simp, by rw [execInp, s.takeAnswer_cons ha]; exact h⟩
    · rename_i hw
      have hw' : s.waiting = false := by simpa using hw
      unfold runCycle at h
      by_cases hp : s.pc.val < 99
      · rw [s.traced.advance_ok (p := ⟨s.pc.val + 1, by omega⟩) (by simp)] at h
        exact .inr (.inr ⟨⟨hr, hw', hp⟩, _, rfl, h⟩)
      · have h99 : s.pc = 99 := Fin.ext (by show s.pc.val = 99; omega)
        rw [s.traced.advance_error (by simpa using h99), h99] at h
        cases h
        exact .inr (.inl ⟨hw', h99, rfl⟩)

/-- Finishing the cycle in progress is a step of a waiting core, or nothing. -/
theorem State.finishCycle_cases (s : State) :
    (s.waiting = true ∧ step s = .next s.finishCycle) ∨
    (s.finishCycle = s ∧ (s.waiting = true → ∀ t, step s ≠ .next t)) := by
  unfold State.finishCycle
  split
  · rename_i hw
    rcases h : step s with t | f | r
    · exact .inl ⟨hw, rfl⟩
    · exact .inr ⟨rfl, fun _ t ht => by cases ht⟩
    · exact .inr ⟨rfl, fun _ t ht => by cases ht⟩
  · rename_i hw
    exact .inr ⟨rfl, fun h => absurd h hw⟩

/-- A core that takes no step keeps its state under any budget. -/
theorem runWithin_of_no_step {s : State} (h : ∀ t, step s ≠ .next t) (n : Nat) : runWithin n s = s := by
  have hf : s.finishCycle = s := by
    rcases s.finishCycle_cases with ⟨_, hs⟩ | ⟨hs, _⟩
    · exact absurd hs (h _)
    · exact hs
  cases n with
  | zero => exact hf
  | succ n =>
    unfold runWithin
    rw [hf]
    split
    · rename_i t ht; exact absurd ht (h t)
    · rfl
    · rfl

end Sys2Proof.Machine
end

