-- ==== Sys2Proof/Laws/Load.lean ====
section
/-! SUPPORT. What an image load can answer. -/

namespace Sys2Proof.Machine

/-- An image's values are cells exactly when every one is in range. -/
theorem imageCells_cases (image : List Int) :
    (∃ ws, imageCells image = some ws ∧ image = ws.map fun w => (w.val : Int)) ∨
    (imageCells image = none ∧ ∃ v ∈ image, v < 0 ∨ 999 < v) := by
  induction image with
  | nil => exact .inl ⟨[], rfl, rfl⟩
  | cons v vs ih =>
    rcases hw : wordOfInt v with _ | w
    · refine .inr ⟨?_, v, by simp, wordOfInt_eq_none.mp hw⟩
      unfold imageCells
      rw [hw]
    · rcases ih with ⟨ws, h1, h2⟩ | ⟨h1, u, hu, hb⟩
      · exact .inl ⟨w :: ws, by simp [imageCells, hw, h1], by simp [wordOfInt_eq_some.mp hw, ← h2]⟩
      · refine .inr ⟨?_, u, by simp [hu], hb⟩
        unfold imageCells
        rw [hw, h1]

/-- All a load can answer: the image in memory, or the fault and no state. -/
theorem State.load_cases (s : State) (image : List Int) :
    (∃ ws, image = ws.map (fun w => (w.val : Int)) ∧ image.length ≤ 100 ∧
      s.load image = .ok { s with mem := Memory.ofCells 0 ws }) ∨
    ((100 < image.length ∨ ∃ v ∈ image, v < 0 ∨ 999 < v) ∧
      s.load image = .error (.imageInvalid image)) := by
  unfold State.load
  by_cases hl : image.length ≤ 100
  · rcases imageCells_cases image with ⟨ws, h1, h2⟩ | ⟨h1, hb⟩
    · exact .inl ⟨ws, h2, hl, by rw [if_pos hl, h1]⟩
    · exact .inr ⟨.inr hb, by rw [if_pos hl, h1]⟩
  · exact .inr ⟨.inl (by omega), by rw [if_neg hl]⟩

end Sys2Proof.Machine
end

