-- ==== Sys2Proof/Laws/PerInstr.lean ====
section
/-! SUPPORT. Facts about every instruction as syntax, one lemma per constructor. -/

namespace Sys2Proof.Laws.TableRange

/-- `value_min` and `value_max` of the instruction's row in spec/opcode_table.json. -/
def row : Instr → Nat × Nat
  | .add _ => (100, 199)
  | .sub _ => (200, 299)
  | .sta _ => (300, 399)
  | .lda _ => (500, 599)
  | .bra _ => (600, 699)
  | .brz _ => (700, 799)
  | .brp _ => (800, 899)
  | .inp => (901, 901)
  | .out => (902, 902)
  | .hlt => (0, 99)
  | .dat _ => (0, 999)
  | .illegal400to499 _ => (400, 499)
  | .illegal900 => (900, 900)
  | .illegal903to999 _ => (903, 999)

/-- The word of a well-formed instruction lies in its row's range. -/
def Statement (i : Instr) : Prop :=
  i.wellFormed = true → (row i).1 ≤ (encode i).val ∧ (encode i).val ≤ (row i).2

/-- The word of class `c` lies in the hundred of `c`. -/
theorem addressWord_range (c : Fin 10) (a : Addr) :
    c.val * 100 ≤ (addressWord c a).val ∧ (addressWord c a).val ≤ c.val * 100 + 99 := by
  unfold addressWord
  constructor
  · exact Nat.le_add_right _ _
  · show c.val * 100 + a.val ≤ c.val * 100 + 99
    omega

theorem add (a : Addr) : Statement (.add a) := fun _ => addressWord_range 1 a
theorem sub (a : Addr) : Statement (.sub a) := fun _ => addressWord_range 2 a
theorem sta (a : Addr) : Statement (.sta a) := fun _ => addressWord_range 3 a
theorem lda (a : Addr) : Statement (.lda a) := fun _ => addressWord_range 5 a
theorem bra (a : Addr) : Statement (.bra a) := fun _ => addressWord_range 6 a
theorem brz (a : Addr) : Statement (.brz a) := fun _ => addressWord_range 7 a
theorem brp (a : Addr) : Statement (.brp a) := fun _ => addressWord_range 8 a
theorem inp : Statement .inp := by unfold Statement; decide
theorem out : Statement .out := by unfold Statement; decide
theorem hlt : Statement .hlt := by unfold Statement; decide
theorem dat (v : Word) : Statement (.dat v) := fun _ =>
  ⟨Nat.zero_le _, Nat.le_of_lt_succ v.isLt⟩
theorem illegal400to499 (w : Word) : Statement (.illegal400to499 w) := fun h => by
  simpa [Instr.wellFormed, row, encode] using h
theorem illegal900 : Statement .illegal900 := by unfold Statement; decide
theorem illegal903to999 (w : Word) : Statement (.illegal903to999 w) := fun h => by
  have h' : 903 ≤ w.val := by simpa [Instr.wellFormed] using h
  exact ⟨h', Nat.le_of_lt_succ w.isLt⟩

end Sys2Proof.Laws.TableRange
end

