-- ==== Sys2Proof/Tests/Slice0.lean ====
section
/-! SUPPORT. The model's own tests. Expected values are the spec's: 95_test_vectors.md (its parts are
named at each group), the opcode table, and the rules. The witnesses at the end show, for each
obligation with hypotheses, states and operands that meet them. -/

namespace Sys2Proof.Tests

open Sys2Proof Sys2Proof.Machine

/-- A running core at `pc` with the given registers, cells and answers. -/
def st (pc : Addr) (acc : Word) (neg : Bool) (mem : Memory) (answers : List Answer := []) : State :=
  { State.reset with pc := pc, acc := acc, neg := neg, mem := mem, answers := answers }

/-- The next state of an outcome. -/
def next? : Host.Outcome State Fault Refusal → Option State
  | .next t => some t
  | .fault _ => none
  | .refused _ => none

/-- `(pc, acc, neg)` after one step from a state. -/
def regs (s : State) : Option (Addr × Word × Bool) := (next? (step s)).map fun t => (t.pc, t.acc, t.neg)

/-- The status after one step. -/
def stat (s : State) : Option Status := (next? (step s)).map State.status

/-- A core that waits for input after an INP fetched from cell 0. -/
def waitSt (neg : Bool) (answers : List Answer) : State :=
  { st 1 0 neg [(0, 901)] answers with waiting := true }

/-- The fault record of a kind and a fetch address. -/
def faultAt (k : FaultKind) (fa : Addr) : Status := .faulted { kind := k, fetchAddr := some fa }

theorem next_of {o : Host.Outcome State Fault Refusal} {t : State} (h : next? o = some t) : o = .next t := by
  cases o <;> simp_all [next?]

/-! ### Well-formedness: an ill-formed term for each check -/

theorem test_illformed_400_below : (Instr.illegal400to499 399).wellFormed = false := by decide
theorem test_illformed_400_above : (Instr.illegal400to499 500).wellFormed = false := by decide
theorem test_wellformed_400_bounds :
    (Instr.illegal400to499 400).wellFormed = true ∧ (Instr.illegal400to499 499).wellFormed = true := by decide
theorem test_illformed_903_below : (Instr.illegal903to999 902).wellFormed = false := by decide
theorem test_wellformed_903_bounds :
    (Instr.illegal903to999 903).wellFormed = true ∧ (Instr.illegal903to999 999).wellFormed = true := by decide

/-! ### Decoding: each word written out digit by digit from 30_encoding.md R72, R78 -/

theorem test_decode_add : decodeWord ⟨1 * 100 + 1 * 10 + 1, by decide⟩ = .add 11 := by decide
theorem test_decode_sub : decodeWord ⟨2 * 100 + 8 * 10 + 7, by decide⟩ = .sub 87 := by decide
theorem test_decode_sta : decodeWord ⟨3 * 100 + 9 * 10 + 9, by decide⟩ = .sta 99 := by decide
theorem test_decode_lda : decodeWord ⟨5 * 100 + 0 * 10 + 7, by decide⟩ = .lda 7 := by decide
theorem test_decode_bra : decodeWord ⟨6 * 100 + 4 * 10 + 0, by decide⟩ = .bra 40 := by decide
theorem test_decode_brz : decodeWord ⟨7 * 100 + 0 * 10 + 9, by decide⟩ = .brz 9 := by decide
theorem test_decode_brp : decodeWord ⟨8 * 100 + 2 * 10 + 0, by decide⟩ = .brp 20 := by decide
theorem test_decode_inp : decodeWord ⟨9 * 100 + 0 * 10 + 1, by decide⟩ = .inp := by decide
theorem test_decode_out : decodeWord ⟨9 * 100 + 0 * 10 + 2, by decide⟩ = .out := by decide
theorem test_decode_hlt : decodeWord 0 = .hlt ∧ decodeWord 1 = .hlt ∧ decodeWord 99 = .hlt := by decide
theorem test_decode_dat_cell : decodeWord (encode (.dat 23)) = .hlt := by decide
theorem test_decode_illegal400 :
    decodeWord 400 = .illegal400to499 400 ∧ decodeWord 499 = .illegal400to499 499 := by decide
theorem test_decode_illegal900 : decodeWord 900 = .illegal900 := by decide
theorem test_decode_illegal903 :
    decodeWord 903 = .illegal903to999 903 ∧ decodeWord 999 = .illegal903to999 999 := by decide
theorem test_encode_generated :
    encode (.add 10) = 110 ∧ encode (.sub 87) = 287 ∧ encode .inp = 901 ∧ encode .hlt = 0 := by decide
theorem test_no_word_above_999 :
    decodeTableWord 16 999 = some (.illegal903to999 999) ∧ decodeTableWord 16 1000 = none := by decide

/-! ### Arithmetic (95_test_vectors.md Part 2) -/

theorem test_add_crosses_zero : regs (st 0 5 true [(0, 110), (10, 8)]) = some (1, 3, false) := by decide
theorem test_add_overflow :
    (next? (step (st 3 400 false [(3, 110), (10, 600)]))).map (fun t => (t.status, t.pc, t.acc, t.neg))
      = some (faultAt (.invalidState .acc 1000) 3, 4, 400, false) := by decide
theorem test_sub_w4 : regs (st 0 10 false [(0, 210), (10, 20)]) = some (1, 10, true) := by decide
theorem test_sub_overflow :
    (next? (step (st 0 1 true [(0, 210), (10, 999)]))).map (fun t => (t.status, t.acc, t.neg))
      = some (faultAt (.invalidState .acc 1000) 0, 1, true) := by decide

/-! ### Transfer -/

theorem test_sta_magnitude :
    (next? (step (st 0 42 true [(0, 320), (20, 5)]))).map (fun t => (t.mem.read 20, t.acc, t.neg))
      = some (42, 42, true) := by decide
theorem test_sta_zero_removes_the_entry :
    (next? (step (st 0 0 true [(0, 320), (20, 5)]))).map State.mem = some [(0, 320)] := by decide
theorem test_lda : regs (st 0 5 true [(0, 507), (7, 123)]) = some (1, 123, false) := by decide
theorem test_lda_own_cell : regs (st 4 0 false [(4, 504)]) = some (5, 504, false) := by decide

/-! ### Branches -/

theorem test_bra : regs (st 12 0 false [(12, 640)]) = some (40, 0, false) := by decide
theorem test_bra_99_then_faults :
    (next? (step (st 0 0 false [(0, 699)]))).bind (fun t => (next? (step t)).map State.status)
      = some (faultAt (.invalidState .pc 100) 99) := by decide
theorem test_brz_negative_zero : regs (st 3 0 true [(3, 709)]) = some (9, 0, true) := by decide
theorem test_brz_not_taken : regs (st 3 1 false [(3, 709)]) = some (4, 1, false) := by decide
theorem test_brp_zero_is_positive : regs (st 6 0 false [(6, 820)]) = some (20, 0, false) := by decide
theorem test_brp_negative_zero : regs (st 6 0 true [(6, 820)]) = some (7, 0, true) := by decide

/-! ### Input and output -/

theorem test_inp_keeps_the_flag : regs (st 0 4 true [(0, 901)] [.value 0]) = some (1, 0, true) := by decide
theorem test_inp_out_of_range :
    stat (st 0 3 false [(0, 901)] [.value (-1)]) = some (faultAt (.invalidState .acc (-1)) 0) := by decide
theorem test_inp_parse_failure :
    stat (st 0 3 false [(0, 901)] [.parseFailure]) = some (faultAt .inputError 0) := by decide
theorem test_inp_waits :
    (next? (step (st 0 3 false [(0, 901)]))).map (fun t => (t.waiting, t.pc, t.acc, t.ending))
      = some (true, 1, 3, .waitingForInput) := by decide
theorem test_inp_resumes : regs ((waitSt false []).supply [.value 7]) = some (1, 7, false) := by decide
/-- 40_cycle.md R115: the budget is not checked inside an INP that waited, and the INP costs one unit. -/
theorem test_budget_does_not_stop_inside_inp :
    (runWithin 0 ((runWithin 1 (State.boot [901, 0] false [])).supply [.value 5])).acc = 5 ∧
    (runWithin 0 ((runWithin 1 (State.boot [901, 0] false [])).supply [.value 5])).ending = .running ∧
    (runWithin 1 ((runWithin 1 (State.boot [901, 0] false [])).supply [.value 5])).ending = .halted := by
  decide
theorem test_out_magnitude :
    (next? (step (st 98 10 true [(98, 902)]))).map (fun t => (t.output, t.pc)) = some ([10], 99) := by decide

/-! ### Halt, data, illegal words, the cycle -/

theorem test_hlt_short_value :
    (next? (step (st 5 0 false [(5, 23)]))).map (fun t => (t.status, t.pc)) = some (.halted, 6) := by decide
theorem test_dat_runs_as_its_word :
    (next? (exec (.dat 110) (st 1 1 false [(10, 2)]))).map State.acc = some 3 := by decide
theorem test_illegal_400 :
    (next? (step (st 3 0 false [(3, 450)]))).map (fun t => (t.status, t.pc))
      = some (faultAt (.unknownOpcode 450) 3, 4) := by decide
theorem test_illegal_900 : stat (st 3 0 false [(3, 900)]) = some (faultAt (.unknownOpcode 900) 3) := by decide
theorem test_illegal_903 : stat (st 3 0 false [(3, 903)]) = some (faultAt (.unknownOpcode 903) 3) := by decide
theorem test_fetch_from_99 :
    (next? (step (st 99 0 false [(99, 400)]))).map (fun t => (t.status, t.pc))
      = some (faultAt (.invalidState .pc 100) 99, 99) := by decide
theorem test_debug_snapshot :
    (next? (step { State.reset with debug := true })).map (fun t => (t.status, t.pc, t.trace))
      = some (.halted, 1, [State.reset.snapshot]) := by decide
theorem test_fault_codes :
    (FaultKind.unknownOpcode 400).code = 1 ∧ (FaultKind.invalidState .pc 100).code = 2 ∧
    FaultKind.inputError.code = 3 ∧ (FaultKind.imageInvalid []).code = 4 := by decide
theorem test_placed_word_is_fetched :
    decodeTableWord 16 901 = some .inp ∧ (State.reset.withFetchWord 16 901).fetchWord = 901 := by decide

/-! ### Load (95_test_vectors.md "Image load") and assembler (W1, W3, "Assembler") -/

theorem test_boot_empty_is_reset : State.boot [] false [] = State.reset := by decide
theorem test_load_one : (State.boot [901] false []).mem = [(0, 901)] := by decide
theorem test_load_bad_value :
    (State.boot [0, 1000] false []).status =
      .faulted { kind := .imageInvalid [0, 1000], fetchAddr := none } := by decide
theorem test_load_too_long : (State.boot (List.replicate 101 0) false []).status ≠ .running := by decide
theorem test_assemble_w1 :
    compileLines [("TESTLABEL", 87)] 0
      [["ADD", "10"], ["SUB", "TESTLABEL"], ["INP"], ["HLT"], ["DAT"], ["DAT", "23"]]
      = .ok [110, 287, 901, 0, 0, 23] := by rfl
theorem test_assemble_w3 :
    compileLine [] 0 ["ADD", "100"] = .error (.syntaxError 0 .invalidArgument) := by rfl
theorem test_assemble_arity :
    compileLine [] 0 ["ADD"] = .error (.syntaxError 0 .wrongNumberOfArguments) ∧
    compileLine [] 0 ["ADD", "10", "20"] = .error (.syntaxError 0 .tooManyTokens) ∧
    compileLine [] 0 ["INP", "5"] = .error (.syntaxError 0 .unexpectedArgument) ∧
    compileLine [] 0 ["DAT", "1000"] = .error (.syntaxError 0 .invalidArgument) := ⟨rfl, rfl, rfl, rfl⟩
theorem test_assemble_references :
    compileLine [] 0 ["ADD", "X"] = .error (.unresolvedReference 0 "X") ∧
    compileLine [] 0 ["ADD", "007"] = .ok 107 ∧
    assemble [["A", "B"]] = .error (.syntaxError 0 .unknownMnemonic) := ⟨rfl, rfl, rfl⟩
theorem test_assemble_labels :
    assemble [["LOOP", "LDA", "7"], ["BRA", "LOOP"], [], ["X"]] = .ok [507, 600, 0, 0] := by rfl

/-! ### Witnesses: the hypotheses of the obligations can be met, each clause at a boundary -/

theorem witness_DecoderFollowsTheDigits :
    (99 : Addr).val = (899 : Word).val % 100 ∧ illegalWord 400 ∧ illegalWord 499 ∧ illegalWord 900 ∧
    illegalWord 903 ∧ illegalWord 999 := by decide

theorem witness_DecodeInvertsGeneration :
    (Instr.illegal400to499 499).wellFormed = true ∧ (∀ v, Instr.illegal400to499 499 ≠ .dat v) ∧
    isMnemonic "BRP" = true ∧ "BRP" ≠ "DAT" ∧ validate 0 "BRP" (some 99) = .ok (.brp 99) :=
  ⟨by decide, by simp, by decide, by decide, rfl⟩

theorem witness_LongWordsHaveOneSpelling :
    100 ≤ (100 : Word).val ∧ decodeWord 100 = decodeWord 100 ∧ 100 ≤ (999 : Word).val := by decide

theorem witness_EveryWordDecodesWellFormed :
    decodeWord 499 = .illegal400to499 499 ∧ decodeWord 900 = .illegal900 ∧
    decodeWord 999 = .illegal903to999 999 ∧ illegalWord 903 ∧ ¬ illegalWord 902 := by decide

theorem witness_BootLoadsAFittingImage :
    (List.replicate 100 (999 : Int)).length ≤ 100 ∧ ∀ v ∈ List.replicate 100 (999 : Int), 0 ≤ v ∧ v ≤ 999 := by
  decide

theorem witness_BadImageNeverRuns :
    100 < (List.replicate 101 (0 : Int)).length ∧ ∃ v ∈ [(0 : Int), 1000], v < 0 ∨ 999 < v := by decide

theorem witness_BulkWriteIsAllOrNothing :
    (∃ v ∈ [(0 : Int), -1], v < 0 ∨ 999 < v) ∧
    (∃ t, exec (.sta 99) (st 1 7 false [(98, 5)]) = .next t) ∧ Instr.sta 99 ≠ .sta 98 ∧
    (∀ v, Instr.sta 99 = .dat v → decodeWord v ≠ .sta 98) ∧
    (∃ t, exec (.dat 399) (st 1 7 false [(98, 5)]) = .next t) ∧ Instr.dat 399 ≠ .sta 98 ∧
    (∀ v, Instr.dat 399 = .dat v → decodeWord v ≠ .sta 98) :=
  ⟨by decide, ⟨_, rfl⟩, by decide, fun v h => (by cases h), ⟨_, rfl⟩, by decide,
    fun v h => (by cases h; decide)⟩

/-- The last address a step can fetch from. -/
theorem witness_StepRunsTheDecodedInstruction :
    (st 98 0 false []).AtFetch ∧ (99 : Addr).val = (st 98 0 false []).pc.val + 1 :=
  ⟨⟨rfl, rfl, by decide⟩, rfl⟩

theorem witness_TheAdvanceComesFirst :
    (st 98 0 false [(98, 699)]).AtFetch ∧ (99 : Addr).val = (st 98 0 false [(98, 699)]).pc.val + 1 ∧
    decodeWord ((st 98 0 false [(98, 699)]).mem.read 98) = .bra 99 ∧
    decodeWord ((st 98 0 false [(98, 700)]).mem.read 98) = .brz 0 ∧
    decodeWord ((st 98 0 false [(98, 899)]).mem.read 98) = .brp 99 :=
  ⟨⟨rfl, rfl, by decide⟩, rfl, by decide, by decide, by decide⟩

theorem witness_FetchFromCell99Faults :
    (st 99 0 false []).status = .running ∧ (st 99 0 false []).waiting = false ∧ (st 99 0 false []).pc = 99 := by
  decide

theorem witness_FaultedRunsAreNeverResumed :
    (∃ t, exec .out (st 1 7 false []) = .next t ∧ t.status = .running) ∧
    ((st 1 7 false []).raise .inputError).status = faultAt .inputError 0 :=
  ⟨⟨_, rfl, rfl⟩, by decide⟩

theorem witness_HaltedAndWaitingStates :
    ({ st 1 0 false [] with status := .halted } : State).status = .halted ∧
    ((waitSt false []).status = .running ∧ (waitSt false []).waiting = true ∧ (waitSt false []).answers = []) ∧
    (waitSt false [.value 7]).answers ≠ [] ∧
    (∀ t, step (waitSt false []) ≠ .next t) ∧
    (∃ t, (st 0 0 false [(0, 901)]).waiting = false ∧ step (st 0 0 false [(0, 901)]) = .next t ∧ t.waiting = true) :=
  ⟨rfl, by decide, by decide, fun t h => (by cases h), _, rfl,
    next_of (t := waitSt false []) (by decide), rfl⟩

theorem witness_AnsweredWaitEqualsDirectInput :
    (waitSt true [.value 0]).status = .running ∧ (waitSt true [.value 0]).waiting = true ∧
    (waitSt true [.value 0]).answers ≠ [] ∧
    (st 1 0 false []).answers = [] ∧ ∃ t, exec .inp (st 1 0 false []) = .next t :=
  ⟨rfl, rfl, by decide, rfl, _, rfl⟩

theorem witness_CheckedAssignmentValidatesThenCommits :
    (99 : Int) = ((99 : Addr).val : Int) ∧ ((100 : Int) < 0 ∨ 99 < (100 : Int)) ∧
    (999 : Int) = ((999 : Word).val : Int) ∧ ((1000 : Int) < 0 ∨ 999 < (1000 : Int)) ∧
    ((-1 : Int) < 0 ∨ 999 < (-1 : Int)) := by decide

/-- The sum 999 fits, the difference -999 fits. -/
theorem witness_AddSplitsTheExactSum :
    (999 : Int) = (if (st 1 500 false [(10, 499)]).neg then -((st 1 500 false [(10, 499)]).acc.val : Int)
      else ((st 1 500 false [(10, 499)]).acc.val : Int)) + (((st 1 500 false [(10, 499)]).mem.read 10).val : Int) ∧
    (999 : Int) ≤ 999 := by decide

theorem witness_SubSplitsTheExactDifference :
    (-999 : Int) = (if (st 1 500 true [(10, 499)]).neg then -((st 1 500 true [(10, 499)]).acc.val : Int)
      else ((st 1 500 true [(10, 499)]).acc.val : Int)) - (((st 1 500 true [(10, 499)]).mem.read 10).val : Int) ∧
    (-999 : Int) ≤ -999 := by decide

theorem witness_ArithmeticOutOfRangeFaults :
    999 < (st 1 500 false [(10, 500)]).signed + (((st 1 500 false [(10, 500)]).mem.read 10).val : Int) ∧
    (st 1 500 true [(10, 500)]).signed - (((st 1 500 true [(10, 500)]).mem.read 10).val : Int) < -999 := by
  decide

theorem witness_StoreWritesTheMagnitude : (st 1 42 true [(10, 5), (20, 5)]).mem.wf := by decide

theorem witness_BranchAlwaysTakesTheTarget :
    (st 1 0 false []).status = .running ∧ (st 1 0 false []).waiting = false ∧
    (∃ t, exec (.bra 99) (st 1 0 false []) = .next t) ∧
    (st 5 0 false [(5, 605)]).AtFetch ∧ (st 5 0 false [(5, 605)]).debug = false ∧
    ((st 5 0 false [(5, 605)]).mem.read (st 5 0 false [(5, 605)]).pc).val = 600 + (st 5 0 false [(5, 605)]).pc.val :=
  ⟨rfl, rfl, ⟨_, (st 1 0 false []).branchTo_eq 99⟩, ⟨rfl, rfl, by decide⟩, rfl, by decide⟩

theorem witness_BranchIfZeroTestsTheMagnitude :
    (st 98 1 false [(98, 709)]).status = .running ∧ (st 98 1 false [(98, 709)]).waiting = false ∧
    (st 98 1 false [(98, 709)]).pc = 98 ∧ (st 98 1 false [(98, 709)]).acc ≠ 0 ∧
    decodeWord ((st 98 1 false [(98, 709)]).mem.read (st 98 1 false [(98, 709)]).pc) = .brz 9 := by decide

theorem witness_BranchIfPositiveTestsTheFlag :
    next? (exec (.lda 7) (st 1 5 true [(7, 123)])) = some (st 1 123 false [(7, 123)]) := by decide

theorem witness_InputLoadsTheAnswer :
    (st 1 0 false [] [.value 999]).answers = .value ((999 : Word).val : Int) :: [] := by decide

theorem witness_InputOutOfRangeOrUnanswered :
    (st 1 0 false [] [.value 1000]).answers = .value 1000 :: [] ∧ ((1000 : Int) < 0 ∨ 999 < (1000 : Int)) ∧
    (st 1 0 false [] [.value (-1)]).answers = .value (-1) :: [] ∧ ((-1 : Int) < 0 ∨ 999 < (-1 : Int)) ∧
    (st 1 0 false []).answers = [] := by decide

theorem witness_ParseFailureIsFatal :
    (st 0 3 false [(0, 901)] [.parseFailure]).answers = .parseFailure :: [] ∧
    stat (st 0 3 false [(0, 901)] [.parseFailure]) = some (faultAt .inputError 0) ∧
    stat (waitSt false [.parseFailure]) = some (faultAt .inputError 0) := by decide

theorem witness_OutputIsTheSequenceOfOutSteps :
    (st 0 999 false [(0, 902)]).AtFetch ∧
    decodeWord ((st 0 999 false [(0, 902)]).mem.read (st 0 999 false [(0, 902)]).pc) = .out ∧
    (next? (step (waitSt false [.value 7]))).isSome = true ∧
    (next? (step (st 99 0 false []))).isSome = true ∧
    (next? (step (st 0 0 false []))).isSome = true ∧ decodeWord ((st 0 0 false []).mem.read 0) ≠ .out :=
  ⟨⟨rfl, rfl, by decide⟩, by decide, by decide, by decide, by decide, by decide⟩

theorem witness_HaltStopsTheLoop :
    (st 98 0 false [(98, 99)]).AtFetch ∧ (99 : Addr).val = (st 98 0 false [(98, 99)]).pc.val + 1 ∧
    decodeWord ((st 98 0 false [(98, 99)]).mem.read (st 98 0 false [(98, 99)]).pc) = .hlt :=
  ⟨⟨rfl, rfl, by decide⟩, rfl, by decide⟩

theorem witness_DataRunsAsItsWord :
    parseNumber "999" = some (999 : Word).val ∧ (st 98 0 false [(98, 110)]).AtFetch ∧
    (99 : Addr).val = (st 98 0 false [(98, 110)]).pc.val + 1 ∧ (99 : Word).val ≤ 99 ∧ (110 : Word).val = 110 ∧
    (901 : Word).val = 901 ∧ (902 : Word).val = 902 ∧ illegalWord 400 :=
  ⟨rfl, ⟨rfl, rfl, by decide⟩, rfl, by decide, by decide, by decide, by decide, by decide⟩

theorem witness_UnknownOpcodeFault :
    (st 98 0 false [(98, 499)]).AtFetch ∧ (99 : Addr).val = (st 98 0 false [(98, 499)]).pc.val + 1 ∧
    illegalWord ((st 98 0 false [(98, 499)]).mem.read (st 98 0 false [(98, 499)]).pc) ∧
    stat (st 98 0 false [(98, 499)]) = some (faultAt (.unknownOpcode 499) 98) :=
  ⟨⟨rfl, rfl, by decide⟩, rfl, by decide, by decide⟩

/-- ADD and SUB answer a next state, the faulting ones too. -/
theorem witness_ArithmeticAndLoadFrame :
    (next? (exec (.add 10) (st 1 998 false [(10, 1)]))).isSome = true ∧
    (next? (exec (.add 10) (st 1 999 false [(10, 1)]))).isSome = true ∧
    (next? (exec (.sub 10) (st 1 999 true [(10, 1)]))).isSome = true ∧
    (next? (exec (.lda 10) (st 1 9 true []))).isSome = true := by decide

theorem witness_StoreFrame :
    (next? (exec (.sta 99) (st 1 9 true []))).isSome = true ∧ (0 : Addr) ≠ 99 := by decide

theorem witness_BranchChannelAndHaltFrame :
    (next? (exec (.bra 0) (st 1 0 true []))).isSome = true ∧
    (next? (exec (.brz 0) (st 1 0 true []))).isSome = true ∧
    (next? (exec (.brp 0) (st 1 0 true []))).isSome = true ∧
    (next? (exec .inp (st 1 0 true []))).isSome = true ∧
    (next? (exec .out (st 1 0 true []))).isSome = true ∧
    (next? (exec .hlt (st 1 0 true []))).isSome = true ∧
    (next? (exec (.illegal400to499 400) (st 1 0 true []))).isSome = true ∧
    (next? (exec .illegal900 (st 1 0 true []))).isSome = true ∧
    (next? (exec (.illegal903to999 903) (st 1 0 true []))).isSome = true := by decide

theorem witness_OnlyArithmeticAndLoadWriteTheFlag :
    regs (st 0 10 false [(0, 210), (10, 20)]) = some (1, 10, true) ∧
    (st 0 10 false [(0, 210), (10, 20)]).neg = false := by decide

theorem witness_StepKeepsMemoryCanonical :
    (st 0 9 false [(0, 399)]).MemoryCanonical ∧ (next? (step (st 0 9 false [(0, 399)]))).isSome = true :=
  ⟨⟨by decide, by simp [st, State.reset]⟩, by decide⟩

theorem witness_StepKeepsStatusExact :
    (waitSt false [.value 1000]).StatusExact ∧ (next? (step (waitSt false [.value 1000]))).isSome = true ∧
    (st 0 0 false [(0, 450)]).StatusExact ∧ (next? (step (st 0 0 false [(0, 450)]))).isSome = true :=
  ⟨fun _ => (by decide), by decide, fun h => (by cases h), by decide⟩

theorem witness_TheTraceChangesNothing :
    (st 0 0 false []).waiting = false ∧ (next? (step (st 0 0 false []))).isSome = true ∧
    (waitSt false [.value 7]).waiting = true ∧ (next? (step (waitSt false [.value 7]))).isSome = true ∧
    State.reset.withoutTrace = ({ State.reset with debug := true } : State).withoutTrace := by decide

theorem witness_NegativeZeroComesOnlyFromInput :
    regs (st 0 4 true [(0, 901)] [.value 0]) = some (1, 0, true) ∧
    ¬ (st 0 4 true [(0, 901)] [.value 0]).NegativeZero :=
  ⟨by decide, fun h => by cases h.1⟩

theorem witness_TheNextFetchSeesTheStore :
    (st 97 902 false [(97, 398)]).AtFetch ∧ (st 97 902 false [(97, 398)]).mem.wf ∧
    (98 : Addr).val = (st 97 902 false [(97, 398)]).pc.val + 1 ∧ (99 : Addr).val = (98 : Addr).val + 1 ∧
    decodeWord ((st 97 902 false [(97, 398)]).mem.read (st 97 902 false [(97, 398)]).pc) = .sta 98 :=
  ⟨⟨rfl, rfl, by decide⟩, by decide, rfl, rfl, by decide⟩

/-- A step that is charged, one that is not, no step, and a run stopped while a step is possible. -/
theorem witness_TheBudgetCountsFetchCycles :
    ((st 0 7 false [(0, 902)]).waiting = false ∧ ∃ t, step (st 0 7 false [(0, 902)]) = .next t) ∧
    ((waitSt false [.value 7]).waiting = true ∧ ∃ t, step (waitSt false [.value 7]) = .next t) ∧
    (∀ t, step (waitSt false []) ≠ .next t) ∧
    (({ st 98 0 false [(98, 902)] with debug := true } : State).debug = true ∧
      ∃ t, step (runWithin 1 { st 98 0 false [(98, 902)] with debug := true }) = .next t) :=
  ⟨⟨rfl, _, rfl⟩, ⟨rfl, _, rfl⟩, fun t h => (by cases h), rfl, _, rfl⟩

theorem witness_SuccessfulRunsEndInHalt :
    (st 0 0 false []).status = .running ∧ (st 0 0 false []).EndsSuccessfully :=
  ⟨rfl, 1, by decide⟩

theorem witness_OpcodeGeneration :
    resolveArgument [] 0 ["99"] = .ok (some (99 : Addr).val) ∧
    resolveArgument [("END", 99)] 0 ["END"] = .ok (some (99 : Addr).val) ∧
    resolveArgument [] 0 ["999"] = .ok (some (999 : Word).val) ∧
    resolveArgument [("END", 999)] 0 ["END"] = .ok (some (999 : Word).val) := ⟨rfl, rfl, rfl, rfl⟩

/-- A number that is also a label, a label on the last line an address can name, and neither. -/
theorem witness_ArgumentsAreNumbersThenLabels :
    (parseNumber "5" = some 5 ∧ labelLine [("5", 2)] "5" = some 2) ∧
    (parseNumber "END" = none ∧ labelLine [("END", 99)] "END" = some (99 : Addr).val) ∧
    (isMnemonic "OUT" = true ∧ parseNumber "-5" = none ∧ labelLine [("END", 99)] "-5" = none) :=
  ⟨⟨rfl, by decide⟩, ⟨rfl, by decide⟩, by decide, rfl, by decide⟩

/-- A label on lines 0 and 2. -/
theorem witness_TheLastLabelDefinitionWins :
    labelLine (labelPass 0 [["X", "HLT"], ["OUT"], ["X"]]).1 "X" = some 2 ∧
    isMnemonic "X" = false ∧ [["X", "HLT"], ["OUT"], ["X"]][2]? = some ["X"] := by decide

theorem witness_LabelPassKeepsUnlabelledPrograms :
    ∀ l ∈ [["ADD", "1"], ([] : List String), ["HLT"]], ∀ (t : String) (ts : List String),
      l = t :: ts → isMnemonic t = true := by
  intro l hl t ts h
  subst h
  simp at hl
  rcases hl with ⟨rfl, _⟩ | ⟨rfl, _⟩ <;> decide

theorem witness_AssembledImageIsPositional :
    assemble [["INP"], ["OUT"], ["HLT"]] = .ok [901, 902, 0] ∧
    (labelPass 0 [["INP"], ["OUT"], ["HLT"]]).2[2]? = some ["HLT"] ∧
    [["INP"], ["OUT"], ["HLT"]].length ≤ 100 ∧
    ([901, 902, 0] : List Word)[(2 : Addr).val]? = some 0 := ⟨rfl, by decide, by decide, by decide⟩

end Sys2Proof.Tests
end

/-! Checked assignment, 00_scope.md R12: validate, then commit. -/
namespace Sys2Proof.Machine

theorem State.memWrite_error (s : State) (a : Addr) {v : Int} (h : v < 0 ∨ 999 < v) :
    s.memWrite a v = .error (.invalidState (.cell a) v) := by
  simp [State.memWrite, wordOfInt_eq_none.mpr h]

/-- Settles O18: each checked field has a rule for a value in range and one for a value out of
range, and `commit` turns either answer into the next state. -/
theorem checkedAssignmentValidatesThenCommits :
    Obligations.CheckedAssignmentValidatesThenCommits := by
  intro s v
  refine ⟨?pcInRange, ?pcOutOfRange, ?accInRange, ?accOutOfRange, ?cellInRange, ?cellOutOfRange,
    ?negCommits, ?raiseKeepsFields⟩
  case pcInRange =>
    rintro p rfl
    rw [s.assignPc_addr p, s.commit_ok]
  case pcOutOfRange =>
    intro hv
    rw [s.assignPc_error hv, s.commit_error]
  case accInRange =>
    rintro w rfl
    rw [s.assignAcc_word w, s.commit_ok]
  case accOutOfRange =>
    intro hv
    rw [s.assignAcc_error hv, s.commit_error]
  case cellInRange =>
    rintro a w rfl
    rw [s.memWrite_word a w, s.commit_ok]
  case cellOutOfRange =>
    intro a hv
    rw [s.memWrite_error a hv, s.commit_error]
  case negCommits => exact fun _ => rfl
  case raiseKeepsFields =>
    exact fun k => ⟨s.raise_pc k, s.raise_acc k, s.raise_neg k, s.raise_mem k⟩

end Sys2Proof.Machine

/-! No word decodes to a DAT (45_halt_data.md R171), so a DAT executes as the instruction its value
spells. -/
namespace Sys2Proof

theorem rejectWord_ne_dat (w v : Word) : rejectWord w ≠ .dat v := by
  unfold rejectWord
  repeat' split
  all_goals simp

theorem ne_dat_of_mem_classTable {h : Nat × (Addr → Instr)} (hh : h ∈ classTable) (a : Addr) (v : Word) :
    h.2 a ≠ .dat v := by
  simp only [classTable, List.mem_cons, List.not_mem_nil, or_false] at hh
  rcases hh with rfl | rfl | rfl | rfl | rfl | rfl | rfl <;> simp

theorem decodeWord_ne_dat (w v : Word) : decodeWord w ≠ .dat v := by
  unfold decodeWord
  split_ifs
  case pos => simp
  case pos => simp
  case pos => simp
  case neg => exact rejectWord_ne_dat w v
  case neg =>
    split
    next h hh =>
      have hmem : h ∈ handlersOf (dig 2 w.val) := by simp [hh]
      exact ne_dat_of_mem_classTable (List.mem_filter.mp hmem).1 _ v
    next => exact rejectWord_ne_dat w v

end Sys2Proof

/-! The only writes of memory: a load that fits, and the one cell of a STA (20_memory.md R52, R53). -/
namespace Sys2Proof.Machine

theorem exec_dat (v : Word) (s : State) : exec (.dat v) s = exec (decodeWord v) s := by
  show execDat v s = _
  unfold execDat
  cases hv : decodeWord v with
  | dat u => exact absurd hv (decodeWord_ne_dat v u)
  | _ => rfl

/-- The instruction that `i` runs as: the one its value decodes to for a DAT, itself otherwise. -/
def RunsAs (i j : Instr) : Prop := i = j ∨ ∃ v, i = .dat v ∧ decodeWord v = j

/-- The inversion of `exec` for every instruction, DAT included. -/
theorem exec_inversion_runsAs {i : Instr} {s t : State} (h : exec i s = .next t) :
    ∃ j, RunsAs i j ∧ ExecCase j s t := by
  by_cases hd : ∃ v, i = .dat v
  · obtain ⟨v, rfl⟩ := hd
    rw [exec_dat] at h
    exact ⟨_, .inr ⟨v, rfl, rfl⟩, exec_inversion (decodeWord_ne_dat v) h⟩
  · exact ⟨i, .inl rfl, exec_inversion (not_exists.mp hd) h⟩

/-- What an instruction does to memory: nothing, or the store of STA. -/
theorem ExecCase.mem_cases {i : Instr} {s t : State} (h : ExecCase i s t) :
    t.mem = s.mem ∨ ∃ a, i = .sta a ∧ t.mem = s.mem.write a s.acc := by
  cases h with
  | store a hi => exact .inr ⟨a, hi, rfl⟩
  | _ => exact .inl rfl

/-- Every cell but the operand of a STA reads as before. -/
theorem ExecCase.read_of_ne_sta {i : Instr} {s t : State} (h : ExecCase i s t) {b : Addr}
    (hb : i ≠ .sta b) : t.mem.read b = s.mem.read b := by
  rcases h.mem_cases with hm | ⟨a, rfl, hm⟩
  · rw [hm]
  · have hba : b ≠ a := by rintro rfl; exact hb rfl
    rw [hm, Memory.read_write_other s.mem s.acc hba]

/-- A load with a value out of range answers the fault and no state (70_reset_and_hazards.md R211). -/
theorem State.load_error_of_bad_value (s : State) {image : List Int} (h : ∃ v ∈ image, v < 0 ∨ 999 < v) :
    s.load image = .error (.imageInvalid image) := by
  rcases s.load_cases image with ⟨ws, himage, -, -⟩ | ⟨-, hload⟩
  · obtain ⟨v, hv, hbad⟩ := h
    rw [himage] at hv
    obtain ⟨w, -, rfl⟩ := List.mem_map.mp hv
    omega
  · exact hload

/-- A reset whose load fails is the reset state with the fault raised (70_reset_and_hazards.md R210). -/
theorem State.boot_of_load_error {image : List Int} {k : FaultKind} (h : State.reset.load image = .error k)
    (debug : Bool) (answers : List Answer) :
    State.boot image debug answers = State.reset.raiseAt none k := by
  unfold State.boot
  rw [h]

/-- Settles O10: a load with an invalid value fails before it writes, and the inversion of `exec`
leaves STA as the only case that writes a cell. -/
theorem bulkWriteIsAllOrNothing : Obligations.BulkWriteIsAllOrNothing := by
  refine ⟨fun s image hbad => ⟨s.load_error_of_bad_value hbad, fun debug answers a => ?bootKeepsCells⟩,
    fun i s t b hexec hsta hdat => ?execFrame⟩
  case bootKeepsCells =>
    rw [State.boot_of_load_error (State.reset.load_error_of_bad_value hbad), State.raiseAt_mem]
  case execFrame =>
    obtain ⟨j, hj, hcase⟩ := exec_inversion_runsAs hexec
    refine hcase.read_of_ne_sta ?_
    rcases hj with rfl | ⟨v, hi, rfl⟩
    · exact hsta
    · exact hdat v hi

end Sys2Proof.Machine

/-! The decoder, one rule for each kind of word (30_encoding.md R74): a short value, an address class, a
rejected word and its row. The words 901 and 902 compute. -/
namespace Sys2Proof
open Machine (illegalWord)

theorem mem_of_lookup {α β : Type} [BEq α] [LawfulBEq α] {l : List (α × β)} {k : α} {b : β}
    (h : l.lookup k = some b) : (k, b) ∈ l := by
  obtain ⟨before, after, rfl, -⟩ := List.lookup_eq_some_iff.mp h
  exact List.mem_append_right before List.mem_cons_self

theorem decodeWord_short {w : Word} (h : w.val < 100) : decodeWord w = .hlt := by
  unfold decodeWord
  rw [if_pos ((ndig_lt_three w).mpr h)]

theorem classTable_cases {c : Nat} {make : Addr → Instr} (h : classTable.lookup c = some make) :
    (c, make) = (1, .add) ∨ (c, make) = (2, .sub) ∨ (c, make) = (3, .sta) ∨ (c, make) = (5, .lda) ∨
      (c, make) = (6, .bra) ∨ (c, make) = (7, .brz) ∨ (c, make) = (8, .brp) := by
  simpa only [classTable, List.mem_cons, List.not_mem_nil, or_false] using mem_of_lookup h

/-- Each row of the class table is the unique match of its class (R75), and none is of class 0 or 9. -/
theorem handlersOf_of_lookup {c : Nat} {make : Addr → Instr} (h : classTable.lookup c = some make) :
    handlersOf c = [(c, make)] ∧ 1 ≤ c ∧ c ≤ 8 := by
  rcases classTable_cases h with h | h | h | h | h | h | h <;> obtain ⟨rfl, rfl⟩ := h <;>
    exact ⟨rfl, by decide⟩

theorem decodeWord_class {w : Word} {c : Nat} {make : Addr → Instr}
    (hmake : classTable.lookup c = some make) (hc : w.val / 100 = c) : decodeWord w = make (operandOf w) := by
  obtain ⟨hhandlers, hlow, hhigh⟩ := handlersOf_of_lookup hmake
  have hlong : ¬ ndig w < 3 := by rw [ndig_lt_three]; omega
  have hdigit : dig 2 w.val = c := (dig_two w).trans hc
  unfold decodeWord
  rw [if_neg hlong, hdigit, if_neg (by omega), hhandlers]

theorem decodeWord_illegal {w : Word} (h : illegalWord w) : decodeWord w = rejectWord w := by
  have hlong : ¬ ndig w < 3 := by rw [ndig_lt_three]; omega
  unfold decodeWord
  rw [if_neg hlong, dig_two]
  by_cases hnine : w.val / 100 = 9
  · rw [if_pos hnine, if_neg (by omega), if_neg (by omega)]
  · have hfour : w.val / 100 = 4 := by omega
    rw [if_neg hnine, hfour]
    rfl

theorem decodeWord_illegal400to499 {w : Word} (hlow : 400 ≤ w.val) (hhigh : w.val ≤ 499) :
    decodeWord w = .illegal400to499 w :=
  (decodeWord_illegal (.inl ⟨hlow, hhigh⟩)).trans (if_pos (by omega))

theorem decodeWord_illegal903to999 {w : Word} (hlow : 903 ≤ w.val) :
    decodeWord w = .illegal903to999 w := by
  rw [decodeWord_illegal (.inr (.inr hlow)), rejectWord, if_neg (by omega), if_neg (by omega)]

/-! Generation puts an operand under the same class digit that the decoder reads (R98). -/

theorem encode_class {c : Nat} {make : Addr → Instr} (hmake : classTable.lookup c = some make) (a : Addr) :
    (encode (make a)).val = c * 100 + a.val := by
  rcases classTable_cases hmake with h | h | h | h | h | h | h <;> obtain ⟨rfl, rfl⟩ := h <;> rfl

/-- R82 for the address instructions: the class digit finds the handler, and `mod 100` the operand. -/
theorem decodeWord_encode_class {c : Nat} {make : Addr → Instr} (hmake : classTable.lookup c = some make)
    (a : Addr) : decodeWord (encode (make a)) = make a := by
  have hword := encode_class hmake a
  have hoperand : operandOf (encode (make a)) = a := by
    apply Fin.ext
    rw [operandOf_val]
    omega
  rw [decodeWord_class hmake (by omega), hoperand]

/-- R82 for every well-formed instruction; an illegal row's word is rejected into its own row. -/
theorem decodeWord_encode {i : Instr} (hwf : i.wellFormed = true) (hdat : ∀ v, i ≠ .dat v) :
    decodeWord (encode i) = i := by
  cases i with
  | add a => exact decodeWord_encode_class (c := 1) (make := .add) rfl a
  | sub a => exact decodeWord_encode_class (c := 2) (make := .sub) rfl a
  | sta a => exact decodeWord_encode_class (c := 3) (make := .sta) rfl a
  | lda a => exact decodeWord_encode_class (c := 5) (make := .lda) rfl a
  | bra a => exact decodeWord_encode_class (c := 6) (make := .bra) rfl a
  | brz a => exact decodeWord_encode_class (c := 7) (make := .brz) rfl a
  | brp a => exact decodeWord_encode_class (c := 8) (make := .brp) rfl a
  | inp => rfl
  | out => rfl
  | hlt => rfl
  | dat v => exact absurd rfl (hdat v)
  | illegal400to499 w =>
    obtain ⟨hlow, hhigh⟩ : 400 ≤ w.val ∧ w.val ≤ 499 := by simpa [Instr.wellFormed] using hwf
    exact decodeWord_illegal400to499 hlow hhigh
  | illegal900 => rfl
  | illegal903to999 w =>
    have hlow : 903 ≤ w.val := by simpa [Instr.wellFormed] using hwf
    exact decodeWord_illegal903to999 hlow

end Sys2Proof

/-! The assembler's validation (30_encoding.md R97): one rule per kind of mnemonic, and their inversion. -/
namespace Sys2Proof.Machine

theorem isMnemonic_iff {m : String} : isMnemonic m = true ↔
    (addressForms.lookup m).isSome = true ∨ (plainForms.lookup m).isSome = true ∨ m = "DAT" := by
  simp [isMnemonic, List.lookup_isSome_iff, or_assoc]

theorem validate_address (line : Nat) {m : String} {make : Addr → Instr}
    (hm : addressForms.lookup m = some make) (a : Addr) :
    validate line m (some a.val) = .ok (make a) := by
  unfold validate
  rw [hm]
  exact dif_pos a.isLt

theorem validate_plain (line : Nat) {m : String} {i : Instr} (haddress : addressForms.lookup m = none)
    (hm : plainForms.lookup m = some i) : validate line m none = .ok i := by
  unfold validate
  rw [haddress, hm]
  rfl

/-- All that validation accepts: an address form with an address, a plain form, or a value. -/
theorem validate_inversion {line : Nat} {m : String} {arg : Option Nat} {i : Instr}
    (h : validate line m arg = .ok i) :
    (∃ make a, addressForms.lookup m = some make ∧ arg = some a.val ∧ i = make a) ∨
    (plainForms.lookup m = some i ∧ arg = none) ∨
    (addressForms.lookup m = none ∧ plainForms.lookup m = none ∧ ∃ v, i = .dat v) := by
  unfold validate at h
  cases haddress : addressForms.lookup m with
  | some make =>
    cases arg with
    | none => simp [haddress] at h
    | some n =>
      by_cases hn : n < 100
      · have hi : make ⟨n, hn⟩ = i := by simpa [haddress, hn] using h
        exact .inl ⟨make, ⟨n, hn⟩, rfl, rfl, hi.symm⟩
      · simp [haddress, hn] at h
  | none =>
    cases hplain : plainForms.lookup m with
    | some j =>
      cases arg with
      | none =>
        have hi : j = i := by simpa [haddress, hplain] using h
        exact .inr (.inl ⟨by rw [hi], rfl⟩)
      | some n => simp [haddress, hplain] at h
    | none =>
      by_cases hn : arg.getD 0 < 1000
      · have hi : Instr.dat ⟨arg.getD 0, hn⟩ = i := by simpa [haddress, hplain, hn] using h
        exact .inr (.inr ⟨rfl, rfl, _, hi.symm⟩)
      · simp [haddress, hplain, hn] at h

/-- The mnemonics with an address argument are the class table's handlers. -/
theorem class_of_addressForms {m : String} {make : Addr → Instr}
    (hm : addressForms.lookup m = some make) : ∃ c, classTable.lookup c = some make := by
  have hmem : make ∈ addressForms.map Prod.snd := List.mem_map_of_mem (mem_of_lookup hm)
  simp only [addressForms, List.map_cons, List.map_nil, List.mem_cons, List.not_mem_nil, or_false] at hmem
  rcases hmem with rfl | rfl | rfl | rfl | rfl | rfl | rfl
  exacts [⟨1, rfl⟩, ⟨2, rfl⟩, ⟨3, rfl⟩, ⟨5, rfl⟩, ⟨6, rfl⟩, ⟨7, rfl⟩, ⟨8, rfl⟩]

theorem plainForms_cases {m : String} {i : Instr} (hm : plainForms.lookup m = some i) :
    i = .inp ∨ i = .out ∨ i = .hlt := by
  have hmem : i ∈ plainForms.map Prod.snd := List.mem_map_of_mem (mem_of_lookup hm)
  simpa [plainForms] using hmem

theorem decodeWord_encode_of_validate {line : Nat} {m : String} {arg : Option Nat} {i : Instr}
    (hm : isMnemonic m = true) (hdat : m ≠ "DAT") (h : validate line m arg = .ok i) :
    decodeWord (encode i) = i := by
  rcases validate_inversion h with ⟨make, a, hmake, -, rfl⟩ | ⟨hplain, -⟩ | ⟨haddress, hplain, -⟩
  · obtain ⟨c, hc⟩ := class_of_addressForms hmake
    exact decodeWord_encode_class hc a
  · rcases plainForms_cases hplain with rfl | rfl | rfl <;> rfl
  · simp [isMnemonic_iff, haddress, hplain, hdat] at hm

/-- Settles O3: the class digit and `mod 100` read back what generation wrote; what the assembler
accepts for a mnemonic other than DAT is such an instruction, and no word decodes to a DAT. -/
theorem decodeInvertsGeneration : Obligations.DecodeInvertsGeneration := by
  refine ⟨fun i hwf hdat => decodeWord_encode hwf hdat,
    fun line m arg i hm hdat h => decodeWord_encode_of_validate hm hdat h,
    fun line a => ⟨?add, ?sub, ?sta, ?lda, ?bra, ?brz, ?brp, ?inp, ?out, ?hlt⟩,
    fun v => decodeWord_ne_dat _ v⟩
  case inp | out | hlt => exact validate_plain line rfl rfl
  all_goals exact validate_address line rfl a

/-- The decoder's fault is the rejected row's meaning, for the word decoded (60_exceptions.md R181). -/
theorem exec_rejectWord (w : Word) (s : State) :
    exec (rejectWord w) s = .next (s.raise (.unknownOpcode w)) := by
  unfold rejectWord
  split_ifs with hlt heq
  case pos => rfl
  case pos =>
    have hw : w = 900 := Fin.ext heq
    rw [hw]
    rfl
  case neg => rfl

/-- A value meets an `if` when it meets each branch under that branch's condition. -/
theorem eq_ite_of {α : Type} {p : Prop} [Decidable p] {x y z : α} (hpos : p → x = y)
    (hneg : ¬ p → x = z) : x = if p then y else z :=
  iteInduction (motive := (x = ·)) hpos hneg

/-- The branch of class 9 in the digit procedure. -/
theorem decodeWord_nine {w : Word} (h : w.val / 100 = 9) : decodeWord w =
    if w.val = 901 then .inp
    else if w.val = 902 then .out
    else if w.val = 900 then .illegal900
    else .illegal903to999 w := by
  refine eq_ite_of (fun hw => ?inp) fun h901 => eq_ite_of (fun hw => ?out) fun h902 =>
    eq_ite_of (fun hw => ?illegal900) fun h900 => decodeWord_illegal903to999 (by omega)
  case inp => rw [show w = 901 from Fin.ext hw]; rfl
  case out => rw [show w = 902 from Fin.ext hw]; rfl
  case illegal900 => rw [show w = 900 from Fin.ext hw]; rfl

/-- Settles O2: each branch of the digit procedure is one of the decoder's rules, and a rejected word's
row raises. -/
theorem decoderFollowsTheDigits : Obligations.DecoderFollowsTheDigits := by
  refine ⟨fun w a ha => ?digits, fun w s h => ?raises⟩
  case raises => rw [decodeWord_illegal h, exec_rejectWord]
  case digits =>
    obtain rfl : operandOf w = a := Fin.ext ha.symm
    exact
      eq_ite_of decodeWord_short fun hlong =>
      eq_ite_of decodeWord_nine fun h9 =>
      eq_ite_of (decodeWord_class rfl) fun h1 =>
      eq_ite_of (decodeWord_class rfl) fun h2 =>
      eq_ite_of (decodeWord_class rfl) fun h3 =>
      eq_ite_of (decodeWord_class rfl) fun h5 =>
      eq_ite_of (decodeWord_class rfl) fun h6 =>
      eq_ite_of (decodeWord_class rfl) fun h7 =>
      eq_ite_of (decodeWord_class rfl) fun h8 =>
      decodeWord_illegal400to499 (by omega) (by omega)

end Sys2Proof.Machine

/-! One line of the assembler (30_encoding.md R95 to R98): an accepted line's opcode. -/
namespace Sys2Proof.Machine

theorem compileLine_of_validate {labels : List (String × Nat)} {line : Nat} {m : String}
    {args : List String} {arg : Option Nat} {i : Instr} (hcount : args.length ≤ 1)
    (hm : isMnemonic m = true) (harg : resolveArgument labels line args = .ok arg)
    (hi : validate line m arg = .ok i) : compileLine labels line (m :: args) = .ok (encode i) := by
  unfold compileLine
  simp [Nat.not_lt.mpr hcount, hm, harg, hi]

theorem compileLine_address {labels : List (String × Nat)} {line : Nat} {m t : String}
    {make : Addr → Instr} {a : Addr} (hm : addressForms.lookup m = some make)
    (ht : resolveArgument labels line [t] = .ok (some a.val)) :
    compileLine labels line [m, t] = .ok (encode (make a)) :=
  compileLine_of_validate le_rfl (isMnemonic_iff.mpr (.inl (by rw [hm]; rfl))) ht
    (validate_address line hm a)

theorem compileLine_plain (labels : List (String × Nat)) (line : Nat) {m : String} {i : Instr}
    (haddress : addressForms.lookup m = none) (hm : plainForms.lookup m = some i) :
    compileLine labels line [m] = .ok (encode i) :=
  compileLine_of_validate (Nat.zero_le 1) (isMnemonic_iff.mpr (.inr (.inl (by rw [hm]; rfl)))) rfl
    (validate_plain line haddress hm)

theorem validate_dat (line : Nat) {arg : Option Nat} {v : Word} (hv : arg.getD 0 = v.val) :
    validate line "DAT" arg = .ok (.dat v) := by
  have haddress : addressForms.lookup "DAT" = none := rfl
  have hplain : plainForms.lookup "DAT" = none := rfl
  unfold validate
  simp [haddress, hplain, hv]

theorem compileLine_dat {labels : List (String × Nat)} {line : Nat} {args : List String}
    {arg : Option Nat} {v : Word} (hcount : args.length ≤ 1)
    (harg : resolveArgument labels line args = .ok arg) (hv : arg.getD 0 = v.val) :
    compileLine labels line ("DAT" :: args) = .ok v :=
  compileLine_of_validate hcount (isMnemonic_iff.mpr (.inr (.inr rfl))) harg (validate_dat line hv)

/-- Settles O50: an accepted line's opcode is the encoding of its validated instruction. -/
theorem opcodeGeneration : Obligations.OpcodeGeneration := by
  intro labels line
  refine ⟨fun t a ht => ⟨?add, ?sub, ?sta, ?lda, ?bra, ?brz, ?brp⟩, addressWord_val,
    ?inp, ?out, ?hlt, ?datAlone, rfl, fun t v ht => ?datValue⟩
  case inp => exact compileLine_plain labels line (i := .inp) rfl rfl
  case out => exact compileLine_plain labels line (i := .out) rfl rfl
  case hlt => exact compileLine_plain labels line (i := .hlt) rfl rfl
  case datAlone => exact compileLine_dat (arg := none) (Nat.zero_le 1) rfl rfl
  case datValue => exact compileLine_dat le_rfl ht rfl
  case add => exact compileLine_address (make := .add) rfl ht
  case sub => exact compileLine_address (make := .sub) rfl ht
  case sta => exact compileLine_address (make := .sta) rfl ht
  case lda => exact compileLine_address (make := .lda) rfl ht
  case bra => exact compileLine_address (make := .bra) rfl ht
  case brz => exact compileLine_address (make := .brz) rfl ht
  case brp => exact compileLine_address (make := .brp) rfl ht

end Sys2Proof.Machine

/-! The label pass (30_encoding.md R93, R94), one equation per kind of line. -/
namespace Sys2Proof.Machine

theorem labelPass_empty (i : Nat) (rest : List (List String)) :
    labelPass i ([] :: rest) = ((labelPass (i + 1) rest).1, [] :: (labelPass (i + 1) rest).2) := rfl

theorem labelPass_mnemonic (i : Nat) {t : String} (ts : List String) (rest : List (List String))
    (ht : isMnemonic t = true) : labelPass i ((t :: ts) :: rest) =
      ((labelPass (i + 1) rest).1, (t :: ts) :: (labelPass (i + 1) rest).2) := if_pos ht

theorem labelPass_label (i : Nat) {t : String} (ts : List String) (rest : List (List String))
    (ht : isMnemonic t = false) : labelPass i ((t :: ts) :: rest) =
      ((t, i) :: (labelPass (i + 1) rest).1, ts :: (labelPass (i + 1) rest).2) :=
  if_neg (by simp [ht])

theorem labelPass_of_unlabelled {program : List (List String)} (i : Nat)
    (h : ∀ l ∈ program, ∀ (t : String) (ts : List String), l = t :: ts → isMnemonic t = true) :
    labelPass i program = ([], program) := by
  induction program generalizing i with
  | nil => rfl
  | cons line rest ih =>
    have hrest := ih (i + 1) fun l hl => h l (List.mem_cons_of_mem line hl)
    cases line with
    | nil => rw [labelPass_empty, hrest]
    | cons t ts => rw [labelPass_mnemonic i ts rest (h _ List.mem_cons_self t ts rfl), hrest]

/-- The first line binds its label to `i`, and the rest binds its own from `i + 1` on. -/
theorem mem_labelPass_cons {i : Nat} {line : List String} {rest : List (List String)} {t : String}
    {n : Nat} : (t, n) ∈ (labelPass i (line :: rest)).1 ↔
      (n = i ∧ isMnemonic t = false ∧ ∃ ts, line = t :: ts) ∨ (t, n) ∈ (labelPass (i + 1) rest).1 := by
  cases line with
  | nil => simp [labelPass_empty]
  | cons u us =>
    cases hu : isMnemonic u with
    | true =>
      rw [labelPass_mnemonic i us rest hu]
      have hne : isMnemonic t = false → u ≠ t := by rintro ht rfl; simp [hu] at ht
      constructor
      · exact .inr
      · rintro (⟨-, ht, ts, hline⟩ | h)
        · exact absurd (List.cons.inj hline).1 (hne ht)
        · exact h
    | false =>
      rw [labelPass_label i us rest hu, List.mem_cons]
      refine or_congr_left ?_
      constructor
      · rintro ⟨⟩
        exact ⟨rfl, hu, us, rfl⟩
      · rintro ⟨rfl, -, ts, hline⟩
        rw [(List.cons.inj hline).1]

theorem mem_labelPass {program : List (List String)} {i : Nat} {t : String} {n : Nat} :
    (t, n) ∈ (labelPass i program).1 ↔
      isMnemonic t = false ∧ ∃ k ts, n = i + k ∧ program[k]? = some (t :: ts) := by
  induction program generalizing i with
  | nil => simp [labelPass]
  | cons line rest ih =>
    rw [mem_labelPass_cons, ih]
    constructor
    · rintro (⟨rfl, ht, ts, rfl⟩ | ⟨ht, k, ts, rfl, hk⟩)
      · exact ⟨ht, 0, ts, rfl, rfl⟩
      · exact ⟨ht, k + 1, ts, by omega, hk⟩
    · rintro ⟨ht, k, ts, rfl, hk⟩
      cases k with
      | zero => exact .inl ⟨rfl, ht, ts, by simpa using hk⟩
      | succ k => exact .inr ⟨ht, k, ts, by omega, by simpa using hk⟩

/-- Settles O51, both by induction over the lines with the line number general. -/
theorem labelPassKeepsUnlabelledPrograms : Obligations.LabelPassKeepsUnlabelledPrograms := by
  refine ⟨fun program h => labelPass_of_unlabelled 0 h, fun program t n => ?_⟩
  simp [mem_labelPass]

@[simp] theorem length_labelPass (program : List (List String)) (i : Nat) :
    (labelPass i program).2.length = program.length := by
  induction program generalizing i with
  | nil => rfl
  | cons line rest ih =>
    match line with
    | [] => simp [labelPass_empty, ih]
    | t :: ts =>
      cases ht : isMnemonic t with
      | true => simp [labelPass_mnemonic i ts rest ht, ih]
      | false => simp [labelPass_label i ts rest ht, ih]

end Sys2Proof.Machine

/-! The second pass (30_encoding.md R99) and the load of its image from cell 0 upward
(70_reset_and_hazards.md R211). -/
namespace Sys2Proof.Machine

/-- A pass that succeeds on `l :: rest` has compiled `l`, and the rest one line further on. -/
theorem compileLines_cons {labels : List (String × Nat)} {i : Nat} {l : List String}
    {rest : List (List String)} {image : List Word} (h : compileLines labels i (l :: rest) = .ok image) :
    ∃ w ws, compileLine labels i l = .ok w ∧ compileLines labels (i + 1) rest = .ok ws ∧
      image = w :: ws := by
  unfold compileLines at h
  cases hl : compileLine labels i l with
  | error e => simp [hl] at h
  | ok w =>
    cases hrest : compileLines labels (i + 1) rest with
    | error e => simp [hl, hrest] at h
    | ok ws =>
      have himage : w :: ws = image := by simpa [hl, hrest] using h
      exact ⟨w, ws, rfl, rfl, himage.symm⟩

theorem length_of_compileLines {labels : List (String × Nat)} {i : Nat} {lines : List (List String)}
    {image : List Word} (h : compileLines labels i lines = .ok image) : image.length = lines.length := by
  induction lines generalizing i image with
  | nil =>
    obtain rfl : [] = image := Except.ok.inj h
    rfl
  | cons l rest ih =>
    obtain ⟨w, ws, -, hrest, rfl⟩ := compileLines_cons h
    simp [ih hrest]

theorem getElem?_of_compileLines {labels : List (String × Nat)} {i : Nat} {lines : List (List String)}
    {image : List Word} (h : compileLines labels i lines = .ok image) {n : Nat} {line : List String}
    (hline : lines[n]? = some line) :
    ∃ w, image[n]? = some w ∧ compileLine labels (i + n) line = .ok w := by
  induction lines generalizing i image n with
  | nil => simp at hline
  | cons l rest ih =>
    obtain ⟨w, ws, hl, hrest, rfl⟩ := compileLines_cons h
    cases n with
    | zero =>
      obtain rfl : l = line := by simpa using hline
      exact ⟨w, rfl, hl⟩
    | succ n =>
      obtain ⟨u, hu, hcompiled⟩ := ih hrest (by simpa using hline)
      exact ⟨u, by simpa using hu, by rw [← hcompiled]; congr 1; omega⟩

theorem imageCells_words (ws : List Word) : imageCells (ws.map fun w => (w.val : Int)) = some ws := by
  induction ws with
  | nil => rfl
  | cons w ws ih => simp [imageCells, ih]

/-- An image of words that fits reads back from cell 0 upward, 0 beyond it (R211). -/
theorem State.read_boot_words {ws : List Word} (hlen : ws.length ≤ 100) (debug : Bool)
    (answers : List Answer) (a : Addr) :
    (State.boot (ws.map fun w => (w.val : Int)) debug answers).mem.read a = ws.getD a.val 0 := by
  have hload : State.reset.load (ws.map fun w => (w.val : Int)) =
      .ok { State.reset with mem := Memory.ofCells 0 ws } := by
    simp [State.load, hlen, imageCells_words]
  unfold State.boot
  rw [hload]
  exact Memory.read_ofCells ws 0 a (Nat.zero_le _)

/-- Settles O52: each pass keeps one entry a line, and the load puts the n-th into cell n. -/
theorem assembledImageIsPositional : Obligations.AssembledImageIsPositional := by
  intro program image h
  have hlen : image.length = program.length := by
    rw [length_of_compileLines h, length_labelPass]
  refine ⟨hlen, fun n line hline => ?opcode, fun hfits debug answers a w hw => ?loaded⟩
  case opcode => simpa using getElem?_of_compileLines h hline
  case loaded => rw [State.read_boot_words (by omega), List.getD_eq_getElem?_getD, hw, Option.getD_some]

end Sys2Proof.Machine

/-! The step of a core that fetches, the handlers of the branches and of HLT, and the halted core
(40_cycle.md R111 to R114). -/
namespace Sys2Proof.Machine

theorem step_of_between_cycles {s : State} (hrunning : s.status = .running)
    (hwaiting : s.waiting = false) : step s = runCycle s := by
  simp [step, hrunning, hwaiting]

/-- Below 99 the advance commits, and the handler runs in the advanced state. -/
theorem runCycle_of_advance {s : State} {p : Addr} (hp : p.val = s.pc.val + 1) :
    runCycle s = exec (decodeWord (s.mem.read s.pc)) (s.advanced p) := by
  have hadvance : s.traced.advance = .ok (s.advanced p) :=
    s.traced.advance_ok (by rw [s.traced_pc, hp])
  unfold runCycle
  rw [hadvance]
  rfl

theorem step_of_atFetch {s : State} {p : Addr} (hs : s.AtFetch) (hp : p.val = s.pc.val + 1) :
    step s = exec (decodeWord (s.mem.read s.pc)) (s.advanced p) := by
  obtain ⟨hrunning, hwaiting, -⟩ := hs
  rw [step_of_between_cycles hrunning hwaiting, runCycle_of_advance hp]

theorem step_of_halted {s : State} (h : s.status = .halted) : step s = .fault .halted := by
  rw [step, h]

/-- Nothing wakes a halted core, whatever the budget (60_exceptions.md R196). -/
theorem runWithin_of_halted {s : State} (h : s.status = .halted) (n : Nat) : runWithin n s = s :=
  runWithin_of_no_step (by simp [step_of_halted h]) n

theorem exec_hlt (s : State) : exec .hlt s = .next { s with status := .halted } := rfl

theorem exec_bra (a : Addr) (s : State) : exec (.bra a) s = .next { s with pc := a } :=
  s.branchTo_eq a

/-- BRZ writes its target over the advance where the magnitude is 0, and keeps `pc` elsewhere. -/
theorem exec_brz (a : Addr) (s : State) :
    exec (.brz a) s = .next { s with pc := if s.acc = 0 then a else s.pc } := by
  show execBrz a s = _
  unfold execBrz
  split_ifs
  case pos => exact s.branchTo_eq a
  case neg => rfl

/-- BRP writes its target over the advance where the flag is clear, and keeps `pc` elsewhere. -/
theorem exec_brp (a : Addr) (s : State) :
    exec (.brp a) s = .next { s with pc := if s.neg = false then a else s.pc } := by
  show execBrp a s = _
  unfold execBrp
  split_ifs
  case pos => exact s.branchTo_eq a
  case neg => rfl

/-- Settles O12: the step is the handler in the advanced state, which keeps `acc` and `neg`, so each
branch's own test decides whether the target or the advance stands in `pc`. -/
theorem theAdvanceComesFirst : Obligations.TheAdvanceComesFirst := by
  intro s p hs hp
  have hstep := step_of_atFetch hs hp
  refine ⟨hstep, s.advanced_pc p, fun a => ⟨fun hword => ?bra, fun hword => ?brz, fun hword => ?brp⟩⟩
  case bra => rw [hstep, hword, exec_bra]
  case brz => rw [← s.advanced_acc p, hstep, hword, exec_brz, s.advanced_pc]
  case brp => rw [← s.advanced_neg p, hstep, hword, exec_brp, s.advanced_pc]

/-- Settles O32: the step is HLT's handler in the advanced state, and a halted core takes no step. -/
theorem haltStopsTheLoop : Obligations.HaltStopsTheLoop := by
  refine ⟨exec_hlt, fun s p hs hp hword => ⟨_, ?halts, rfl, step_of_halted rfl, runWithin_of_halted rfl⟩⟩
  case halts => rw [step_of_atFetch hs hp, hword, exec_hlt]

end Sys2Proof.Machine


/-! BRP tests the flag alone (43_branch.md R152), and LDA leaves it clear (42_transfer.md R141). -/
namespace Sys2Proof.Machine

theorem exec_lda (a : Addr) (s : State) :
    exec (.lda a) s = .next { s with acc := s.mem.read a, neg := false } := by
  have hload : s.assignAcc (s.operand a) = .ok { s with acc := s.mem.read a } :=
    s.assignAcc_word (s.mem.read a)
  show execLda a s = _
  unfold execLda
  rw [hload]
  rfl

theorem neg_of_exec_lda {a : Addr} {s t : State} (h : exec (.lda a) s = .next t) : t.neg = false := by
  rw [exec_lda] at h
  cases h
  rfl

theorem exec_brp_taken {s : State} (h : s.neg = false) (a : Addr) :
    exec (.brp a) s = .next { s with pc := a } := by
  rw [exec_brp, if_pos h]

/-- Settles O26: 8 is BRP's class digit, its handler's test reads the flag alone, and the state LDA
leads to has the flag clear. -/
theorem branchIfPositiveTestsTheFlag : Obligations.BranchIfPositiveTestsTheFlag := by
  have hclass : classTable.lookup 8 = some Instr.brp := rfl
  refine ⟨fun a s => ⟨?encodes, ?decodesBack, ?executes⟩, fun a b s u hlda => ?afterLda⟩
  case encodes => exact encode_class hclass a
  case decodesBack => exact decodeWord_encode_class hclass a
  case executes => exact exec_brp a s
  case afterLda => exact exec_brp_taken (neg_of_exec_lda hlda) a

end Sys2Proof.Machine

/-! The output grows by OUT alone (44_io.md R163). -/
namespace Sys2Proof.Machine

theorem exec_out (s : State) : exec .out s = .next (s.emit s.acc) := rfl

/-- OUT is the only handler that writes the output. -/
theorem ExecCase.output_of_ne_out {i : Instr} {s t : State} (h : ExecCase i s t) (hi : i ≠ .out) :
    t.output = s.output := by
  cases h with
  | output hout => exact absurd hout hi
  | _ => rfl

/-- A fetching step sends the accumulator's value where it runs OUT. -/
theorem step_of_out {s : State} {p : Addr} (hs : s.AtFetch) (hp : p.val = s.pc.val + 1)
    (hword : decodeWord (s.mem.read s.pc) = .out) :
    step s = .next ((s.advanced p).emit s.acc) := by
  rw [step_of_atFetch hs hp, hword, exec_out, s.advanced_acc]

/-- Going on with an INP and the fault of the advance leave the output, and so does every fetched
instruction but OUT. -/
theorem output_of_step {s t : State} (h : step s = .next t)
    (hout : s.waiting = true ∨ s.pc = 99 ∨ decodeWord (s.mem.read s.pc) ≠ .out) :
    t.output = s.output := by
  obtain ⟨-, ⟨-, -, hinp⟩ | ⟨-, -, rfl⟩ | ⟨⟨-, hwaiting, hpc⟩, p, -, hexec⟩⟩ := step_inversion h
  · have hcase : ExecCase .inp s t := exec_inversion (fun _ => nofun) hinp
    exact hcase.output_of_ne_out nofun
  · rw [State.raiseAt_output, s.traced_output]
  · have hword : decodeWord (s.mem.read s.pc) ≠ .out := by
      rcases hout with hw | h99 | hword
      · simp [hwaiting] at hw
      · simp [h99] at hpc
      · exact hword
    have hcase := exec_inversion (decodeWord_ne_dat _) hexec
    rw [hcase.output_of_ne_out hword, s.advanced_output]

/-- Settles O31: an OUT step emits the accumulator, a word, after the output so far, and the inversion
of `step` leaves every other step without a case that emits. -/
theorem outputIsTheSequenceOfOutSteps : Obligations.OutputIsTheSequenceOfOutSteps := by
  refine ⟨fun s hs hword => ?outStep, fun s t h hout => output_of_step h hout⟩
  case outStep =>
    have ⟨_, _, hpc⟩ := hs
    have hp : (⟨s.pc.val + 1, Nat.succ_lt_succ hpc⟩ : Addr).val = s.pc.val + 1 := rfl
    refine ⟨_, s.acc, step_of_out hs hp hword, ?appends, Nat.le_of_lt_succ s.acc.isLt⟩
    case appends => rw [State.emit_output, s.advanced_output]

end Sys2Proof.Machine

/-! A DAT places its value, and a fetched value runs as the word it is (45_halt_data.md R171). -/
namespace Sys2Proof.Machine

/-- A number is its own value, whatever the labels are (30_encoding.md R95). -/
theorem resolveArgument_number {t : String} {n : Nat} (ht : parseNumber t = some n)
    (labels : List (String × Nat)) (line : Nat) :
    resolveArgument labels line [t] = .ok (some n) := by
  simp [resolveArgument, ht]

/-- A DAT whose value decodes to `i` executes as `i`. -/
theorem exec_dat_of_decodeWord {v : Word} {i : Instr} (h : decodeWord v = i) (s : State) :
    exec (.dat v) s = exec i s := by
  rw [exec_dat, h]

/-- Settles O33: `exec_dat` sends a DAT to the instruction its value decodes to, which is the one a step
runs, and each value is decoded by the rule of its kind. -/
theorem dataRunsAsItsWord : Obligations.DataRunsAsItsWord := by
  refine ⟨decodeWord_ne_dat, fun v => rfl, fun labels line => ?datAlone,
    fun labels line t v ht => ?datValue, exec_dat, fun s p hs hp => ?fetched,
    fun v s => ⟨fun hv => ?halts, fun hv => ?add, fun hv => ?inp, fun hv => ?out, fun hv => ?raises⟩⟩
  case datAlone => exact compileLine_dat (arg := none) (Nat.zero_le 1) rfl rfl
  case datValue => exact compileLine_dat le_rfl (resolveArgument_number ht labels line) rfl
  case fetched => rw [step_of_atFetch hs hp, exec_dat]
  case halts =>
    have hdecode : decodeWord v = .hlt := decodeWord_short (Nat.lt_succ_of_le hv)
    rw [exec_dat_of_decodeWord hdecode, exec_hlt]
  case add =>
    obtain rfl : v = 110 := Fin.ext hv
    have hdecode : decodeWord 110 = .add 10 := rfl
    exact exec_dat_of_decodeWord hdecode s
  case inp =>
    obtain rfl : v = 901 := Fin.ext hv
    have hdecode : decodeWord 901 = .inp := rfl
    exact exec_dat_of_decodeWord hdecode s
  case out =>
    obtain rfl : v = 902 := Fin.ext hv
    have hdecode : decodeWord 902 = .out := rfl
    rw [exec_dat_of_decodeWord hdecode, exec_out, State.emit]
  case raises =>
    have hdecode : decodeWord v = rejectWord v := decodeWord_illegal hv
    rw [exec_dat_of_decodeWord hdecode, exec_rejectWord]

end Sys2Proof.Machine

/-! The word an illegal row carries, and which words decode to such a row (30_encoding.md R79, R81). -/
namespace Sys2Proof
open Machine (illegalWord)

/-- The word an illegal row raises `UnknownOpcode` for; no other instruction carries one. -/
def carriedWord : Instr → Option Word
  | .illegal400to499 w => some w
  | .illegal900 => some 900
  | .illegal903to999 w => some w
  | _ => none

@[simp] theorem carriedWord_inp : carriedWord .inp = none := rfl

theorem carriedWord_rejectWord (w : Word) : carriedWord (rejectWord w) = some w := by
  unfold rejectWord
  split_ifs with hlt heq
  case pos => rfl
  case pos => exact congrArg some (Fin.ext heq).symm
  case neg => rfl

/-- Every class digit but 0, 4 and 9 has a row in the class table. -/
theorem isSome_lookup_classTable :
    ∀ c < 9, c ≠ 0 → c ≠ 4 → (classTable.lookup c).isSome = true := by decide

theorem carriedWord_of_lookup {c : Nat} {make : Addr → Instr} (h : classTable.lookup c = some make)
    (a : Addr) : carriedWord (make a) = none := by
  rcases classTable_cases h with h | h | h | h | h | h | h <;> obtain ⟨-, rfl⟩ := h <;> rfl

theorem carriedWord_decodeWord_legal {w : Word} (h : ¬ illegalWord w) :
    carriedWord (decodeWord w) = none := by
  by_cases hshort : w.val < 100
  · rw [decodeWord_short hshort]
    rfl
  by_cases hnine : w.val / 100 = 9
  · have hw : w = 901 ∨ w = 902 := by simp only [Fin.ext_iff]; omega
    rcases hw with rfl | rfl <;> rfl
  · obtain ⟨make, hmake⟩ := Option.isSome_iff_exists.mp
      (isSome_lookup_classTable (w.val / 100) (by omega) (by omega) (by omega))
    rw [decodeWord_class hmake rfl]
    exact carriedWord_of_lookup hmake _

/-- A word decodes to an illegal row exactly when it is illegal, and the row carries that word. -/
theorem carriedWord_decodeWord_eq_some {w u : Word} :
    carriedWord (decodeWord w) = some u ↔ illegalWord w ∧ u = w := by
  by_cases h : illegalWord w
  · rw [decodeWord_illegal h, carriedWord_rejectWord, Option.some_inj]
    simp [h, eq_comm]
  · simp [carriedWord_decodeWord_legal h, h]

end Sys2Proof

/-! What a handler does to the status, which faults a step can raise, and that a faulted run is over
(60_exceptions.md R181 to R183, R189). -/
namespace Sys2Proof.Machine

theorem step_of_faulted {s : State} {f : FaultRecord} (h : s.status = .faulted f) :
    step s = .fault (.faulted f) := by
  rw [step, h]

theorem runWithin_of_faulted {s : State} {f : FaultRecord} (h : s.status = .faulted f) (n : Nat) :
    runWithin n s = s :=
  runWithin_of_no_step (by simp [step_of_faulted h]) n

/-- Why a handler running `i` in `s` raises a fault of each kind, and for `UnknownOpcode` and
`InputError` the state `t` it leads to. The advance and LOAD raise the others. -/
def HandlerRaises (i : Instr) (s t : State) : FaultKind → Prop
  | .unknownOpcode w => carriedWord i = some w ∧ t = s.raise (.unknownOpcode w)
  | .inputError => i = .inp ∧
      ∃ rest, s.answers = .parseFailure :: rest ∧ t = (s.answered rest).raise .inputError
  | .invalidState field v => field = .acc ∧ (v < 0 ∨ 999 < v)
  | .imageInvalid _ => False

/-- All a handler can do to the status: keep it, halt, or raise a fault of the instruction fetched. -/
theorem ExecCase.status_cases {i : Instr} {s t : State} (h : ExecCase i s t) :
    t.status = s.status ∨ t.status = .halted ∨
      ∃ k, t.status = .faulted { kind := k, fetchAddr := some s.fetchAddress } ∧
        HandlerRaises i s t k := by
  cases h with
  | halt => exact .inr (.inl rfl)
  | arithFault r _ hr => exact .inr (.inr ⟨_, rfl, rfl, .inr (by omega)⟩)
  | inputFault k rest _ hk => exact .inr (.inr ⟨_, rfl, rfl, hk⟩)
  | parseFailure rest hi ha => exact .inr (.inr ⟨_, rfl, hi, rest, ha, rfl⟩)
  | illegal w hi =>
    have hcarried : carriedWord i = some w := by
      rcases hi with rfl | ⟨rfl, rfl⟩ | rfl <;> rfl
    exact .inr (.inr ⟨_, rfl, hcarried, rfl⟩)
  | _ => exact .inl rfl

/-- A fault found after a handler that began in a running core was raised by it. -/
theorem ExecCase.raises {i : Instr} {s t : State} {f : FaultRecord} (h : ExecCase i s t)
    (hrunning : s.status = .running) (hf : t.status = .faulted f) :
    f.fetchAddr = some s.fetchAddress ∧ HandlerRaises i s t f.kind := by
  rcases h.status_cases with hkept | hhalted | ⟨k, hk, hraises⟩
  · rw [hkept, hrunning] at hf
    cases hf
  · rw [hhalted] at hf
    cases hf
  · rw [hk] at hf
    cases hf
    exact ⟨rfl, hraises⟩

/-- The handler of a fetching step finds its fetch address in the advanced `pc`. -/
theorem State.fetchAddress_advanced {s : State} {p : Addr} (hp : p.val = s.pc.val + 1) :
    (s.advanced p).fetchAddress = s.pc :=
  Fin.ext (by simp [hp])

/-- The three places a step can fault in: an INP that goes on with its answer, the advance from 99,
and the handler of the word fetched. -/
theorem step_fault_cases {s t : State} {f : FaultRecord} (h : step s = .next t)
    (hf : t.status = .faulted f) :
    (s.waiting = true ∧ HandlerRaises .inp s t f.kind) ∨
    f.kind = .invalidState .pc 100 ∨
    ∃ p : Addr, p.val = s.pc.val + 1 ∧ f.fetchAddr = some s.pc ∧
      HandlerRaises (decodeWord (s.mem.read s.pc)) (s.advanced p) t f.kind := by
  obtain ⟨hrunning, ⟨hwaiting, -, hinp⟩ | ⟨-, -, rfl⟩ | ⟨-, p, hp, hexec⟩⟩ := step_inversion h
  · have hcase : ExecCase .inp s t := exec_inversion (fun _ => nofun) hinp
    exact .inl ⟨hwaiting, (hcase.raises hrunning hf).2⟩
  · cases hf
    exact .inr (.inl rfl)
  · have hcase := exec_inversion (decodeWord_ne_dat _) hexec
    obtain ⟨haddr, hraises⟩ := hcase.raises ((s.advanced_status p).trans hrunning) hf
    rw [State.fetchAddress_advanced hp] at haddr
    exact .inr (.inr ⟨p, hp, haddr, hraises⟩)

/-- Settles O14: a handler that ends in Running kept the status, and a faulted core takes no step. -/
theorem faultedRunsAreNeverResumed : Obligations.FaultedRunsAreNeverResumed := by
  refine ⟨fun i s t hexec hrunning => ?keptRunning,
    fun s f hf => ⟨step_of_faulted hf, runWithin_of_faulted hf⟩⟩
  case keptRunning =>
    obtain ⟨j, -, hcase⟩ := exec_inversion_runsAs hexec
    rcases hcase.status_cases with hkept | hhalted | ⟨k, hk, -⟩
    · exact hkept.symm.trans hrunning
    · simp [hhalted] at hrunning
    · simp [hk] at hrunning

theorem exec_inp_parseFailure {s : State} {rest : List Answer} (h : s.answers = .parseFailure :: rest) :
    exec .inp s = .next ((s.answered rest).raise .inputError) := by
  show execInp s = _
  unfold execInp
  rw [s.takeAnswer_cons h]
  rfl

/-- Settles O29: only an INP raises `InputError`, going on with its answer or freshly fetched, and its
handler keeps `acc`, `neg` and the `pc` it finds. -/
theorem parseFailureIsFatal : Obligations.ParseFailureIsFatal := by
  refine ⟨rfl, fun s rest hanswers => ⟨_, _, exec_inp_parseFailure hanswers, rfl, rfl⟩,
    fun s t f hstep hf hkind => ?raised⟩
  case raised =>
    have hstays := runWithin_of_faulted hf
    have hcases := step_fault_cases hstep hf
    rw [hkind] at hcases
    rcases hcases with ⟨hwaiting, -, rest, hanswers, rfl⟩ | hadvance |
      ⟨p, hp, -, hword, rest, hanswers, rfl⟩
    case inl => exact ⟨.inl hwaiting, ⟨rest, hanswers⟩, rfl, rfl, by simp [hwaiting], hstays⟩
    case inr.inl => cases hadvance
    case inr.inr =>
      rw [s.advanced_answers] at hanswers
      exact ⟨.inr hword, ⟨rest, hanswers⟩, s.advanced_acc p, s.advanced_neg p, fun _ => hp, hstays⟩

/-- A step that fetches an illegal word raises `UnknownOpcode` in the advanced state. -/
theorem step_of_illegalWord {s : State} {p : Addr} (hs : s.AtFetch) (hp : p.val = s.pc.val + 1)
    (hword : illegalWord (s.mem.read s.pc)) :
    step s = .next ((s.advanced p).raise (.unknownOpcode (s.mem.read s.pc))) := by
  rw [step_of_atFetch hs hp, decodeWord_illegal hword, exec_rejectWord]

/-- Settles O35: an illegal word's row raises for it after the advance, and only the row that an illegal
word decodes to raises `UnknownOpcode`. -/
theorem unknownOpcodeFault : Obligations.UnknownOpcodeFault := by
  refine ⟨fun w => rfl, fun s p hs hp hword => ?raises, fun s t f w hstep hf hkind => ?raised⟩
  case raises =>
    rw [step_of_illegalWord hs hp hword, State.raise, State.fetchAddress_advanced hp]
    rfl
  case raised =>
    have hcases := step_fault_cases hstep hf
    rw [hkind] at hcases
    rcases hcases with ⟨-, hinp, -⟩ | hadvance | ⟨p, hp, haddr, hcarried, rfl⟩
    case inl => simp at hinp
    case inr.inl => cases hadvance
    case inr.inr =>
      obtain ⟨hillegal, hw⟩ := carriedWord_decodeWord_eq_some.mp hcarried
      exact ⟨hw, hw ▸ hillegal, haddr, hp, s.advanced_acc p, s.advanced_neg p, s.advanced_mem p⟩

end Sys2Proof.Machine

/-! What a step keeps: memory in canonical form, the trace but for one snapshot per fetch, and a status
that fits the state (10_state.md R34, 60_exceptions.md R181 to R184). -/
namespace Sys2Proof.Machine

/-- `step_inversion` with the case in which the handler ended. -/
theorem step_execCase {s t : State} (h : step s = .next t) :
    s.status = .running ∧
    ((s.waiting = true ∧ s.answers ≠ [] ∧ ExecCase .inp s t) ∨
     (s.waiting = false ∧ s.pc = 99 ∧ t = s.traced.raiseAt (some 99) (.invalidState .pc 100)) ∨
     (s.AtFetch ∧ ∃ p : Addr, p.val = s.pc.val + 1 ∧
        ExecCase (decodeWord (s.mem.read s.pc)) (s.advanced p) t)) := by
  obtain ⟨hrunning, ⟨hwaiting, hanswers, hinp⟩ | hadvance | ⟨hfetch, p, hp, hexec⟩⟩ := step_inversion h
  · exact ⟨hrunning, .inl ⟨hwaiting, hanswers, exec_inversion (fun _ => nofun) hinp⟩⟩
  · exact ⟨hrunning, .inr (.inl hadvance)⟩
  · exact ⟨hrunning, .inr (.inr ⟨hfetch, p, hp, exec_inversion (decodeWord_ne_dat _) hexec⟩)⟩

theorem ExecCase.trace_eq {i : Instr} {s t : State} (h : ExecCase i s t) : t.trace = s.trace := by
  cases h with
  | _ => rfl

/-- A step that fetches emits its snapshot under DEBUG; going on with an INP emits none. -/
theorem trace_of_step {s t : State} (h : step s = .next t) :
    t.trace = if s.waiting then s.trace else s.traced.trace := by
  obtain ⟨-, ⟨hwaiting, -, hcase⟩ | ⟨hwaiting, -, rfl⟩ | ⟨⟨-, hwaiting, -⟩, p, -, hcase⟩⟩ :=
    step_execCase h
  · rw [hcase.trace_eq, if_pos hwaiting]
  · rw [State.raiseAt_trace, if_neg (by simp [hwaiting])]
  · rw [hcase.trace_eq, if_neg (by simp [hwaiting]), s.advanced_trace, s.traced_trace]

theorem mem_of_step {s t : State} (h : step s = .next t) :
    t.mem = s.mem ∨ ∃ a, t.mem = s.mem.write a s.acc := by
  obtain ⟨-, ⟨-, -, hcase⟩ | ⟨-, -, rfl⟩ | ⟨-, p, -, hcase⟩⟩ := step_execCase h
  · rcases hcase.mem_cases with hm | ⟨a, hi, -⟩
    · exact .inl hm
    · cases hi
  · exact .inl s.traced_mem
  · rcases hcase.mem_cases with hm | ⟨a, -, hm⟩
    · exact .inl (hm.trans (s.advanced_mem p))
    · rw [s.advanced_mem, s.advanced_acc] at hm
      exact .inr ⟨a, hm⟩

theorem State.MemoryCanonical.traced {s : State} (h : s.MemoryCanonical) : s.traced.MemoryCanonical := by
  obtain ⟨hmem, htrace⟩ := h
  refine ⟨by rwa [s.traced_mem], fun q hq => ?_⟩
  rw [s.traced_trace] at hq
  split at hq
  · rcases List.mem_append.mp hq with hq | hq
    · exact htrace q hq
    · rw [List.mem_singleton.mp hq]
      exact hmem
  · exact htrace q hq

/-- Settles O40: a step writes at most one cell, which keeps the canonical form, and the one snapshot it
may emit holds the memory before it. -/
theorem stepKeepsMemoryCanonical : Obligations.StepKeepsMemoryCanonical := by
  intro s t hs hstep
  have ⟨hwf, htrace⟩ := hs
  have ⟨_, htraced⟩ := hs.traced
  refine ⟨?mem, ?trace⟩
  case mem =>
    rcases mem_of_step hstep with hm | ⟨a, hm⟩
    · rw [hm]
      exact hwf
    · rw [hm]
      exact Memory.wf_write hwf a s.acc
  case trace =>
    rw [trace_of_step hstep]
    split
    · exact htrace
    · exact htraced

/-- A handler's fault finds the fetch address in the advanced `pc`. -/
theorem State.afterAdvance_raise {s : State} (hpc : 1 ≤ s.pc.val) (k : FaultKind) :
    FaultRecord.AfterAdvance { kind := k, fetchAddr := some s.fetchAddress } (s.raise k) :=
  ⟨s.fetchAddress, rfl, by rw [s.raise_pc, s.fetchAddress_val]; omega⟩

theorem State.statusExact_of_running {s : State} (hrunning : s.status = .running)
    (hpc : s.waiting = true → 1 ≤ s.pc.val) : s.StatusExact := by
  unfold State.StatusExact
  rw [hrunning]
  exact hpc

/-- Every case of a handler that runs after the advance fits the status, where a core that waits runs
INP and an illegal row carries an illegal word. -/
theorem ExecCase.statusExact {i : Instr} {s t : State} (h : ExecCase i s t)
    (hrunning : s.status = .running) (hpc : 1 ≤ s.pc.val) (hwaiting : s.waiting = true → i = .inp)
    (hillegal : ∀ w, carriedWord i = some w → illegalWord w) : t.StatusExact := by
  have hstill : i ≠ .inp → s.waiting = false := fun hi => by simpa using mt hwaiting hi
  cases h with
  | arith | store | load | noBranch | output | await | input =>
    exact State.statusExact_of_running hrunning fun _ => hpc
  | branch a hi =>
    have hwait : s.waiting = false := hstill (by rintro rfl; simp at hi)
    exact State.statusExact_of_running hrunning fun h => by simp [hwait] at h
  | halt hi => exact ⟨hstill (by simp [hi]), hpc⟩
  | arithFault r hi hr =>
    have hwait : s.waiting = false := hstill (by rintro rfl; simp [ExactResult] at hi)
    exact ⟨hwait, .inr (by omega), State.afterAdvance_raise hpc _⟩
  | parseFailure rest => exact ⟨rfl, State.afterAdvance_raise hpc _⟩
  | inputFault k rest _ hk => exact ⟨rfl, hk, State.afterAdvance_raise hpc _⟩
  | illegal w hi =>
    have hcarried : carriedWord i = some w := by
      rcases hi with rfl | ⟨rfl, rfl⟩ | rfl <;> rfl
    exact ⟨hstill (by rintro rfl; simp at hcarried), hillegal w hcarried, State.afterAdvance_raise hpc _⟩

/-- Settles O41: an INP that goes on and a handler of a fetched word both run after the advance, and the
advance from 99 raises the one fault that keeps `pc`. -/
theorem stepKeepsStatusExact : Obligations.StepKeepsStatusExact := by
  intro s t hs hstep
  obtain ⟨hrunning, ⟨hwaiting, -, hcase⟩ | ⟨hwaiting, hpc, rfl⟩ | ⟨⟨-, hwaiting, -⟩, p, hp, hcase⟩⟩ :=
    step_execCase hstep
  · have hpc : 1 ≤ s.pc.val := by
      unfold State.StatusExact at hs
      rw [hrunning] at hs
      exact hs hwaiting
    exact hcase.statusExact hrunning hpc (fun _ => rfl) (by simp)
  · exact ⟨s.traced_waiting.trans hwaiting, rfl, rfl, s.traced_pc.trans hpc⟩
  · refine hcase.statusExact ((s.advanced_status p).trans hrunning) ?afterAdvance ?fetches ?illegal
    case afterAdvance => rw [s.advanced_pc]; omega
    case fetches => simp [hwaiting]
    case illegal =>
      intro w hw
      obtain ⟨hillegal, rfl⟩ := carriedWord_decodeWord_eq_some.mp hw
      exact hillegal

end Sys2Proof.Machine

/-! The steps of a core that waits and of one at 99 (40_cycle.md R111, R113), STA's handler (42_transfer.md
R140), and INP's with and without an answer at hand (44_io.md R160, R162). -/
namespace Sys2Proof.Machine

theorem step_of_waiting {s : State} (hrunning : s.status = .running) (hwaiting : s.waiting = true) :
    step s = resumeInp s := by
  simp [step, hrunning, hwaiting]

theorem runCycle_of_pc99 {s : State} (hpc : s.pc = 99) :
    runCycle s = .next (s.traced.raiseAt (some 99) (.invalidState .pc 100)) := by
  unfold runCycle
  rw [s.traced.advance_error (s.traced_pc.trans hpc), hpc]

theorem step_of_pc99 {s : State} (hrunning : s.status = .running) (hwaiting : s.waiting = false)
    (hpc : s.pc = 99) : step s = .next (s.traced.raiseAt (some 99) (.invalidState .pc 100)) := by
  rw [step_of_between_cycles hrunning hwaiting, runCycle_of_pc99 hpc]

/-- The magnitude is in range, so a STA always commits. -/
theorem exec_sta (a : Addr) (s : State) :
    exec (.sta a) s = .next { s with mem := s.mem.write a s.acc } := by
  show s.commit (s.memWrite a s.acc.val) = _
  rw [s.memWrite_word, s.commit_ok]

theorem exec_inp_of_nil {s : State} (h : s.answers = []) : exec .inp s = .next s.awaitInput := by
  show execInp s = _
  rw [execInp, s.takeAnswer_nil h]

theorem exec_inp_of_cons {s : State} {x : Answer} {rest : List Answer} (h : s.answers = x :: rest) :
    exec .inp s = (s.answered rest).acceptAnswer x := by
  show execInp s = _
  rw [execInp, s.takeAnswer_cons h]
  rfl

theorem resumeInp_of_nil {s : State} (h : s.answers = []) : resumeInp s = .fault .waitingForInput := by
  rw [resumeInp, s.takeAnswer_nil h]

theorem resumeInp_of_cons {s : State} {x : Answer} {rest : List Answer} (h : s.answers = x :: rest) :
    resumeInp s = (s.answered rest).acceptAnswer x := by
  rw [resumeInp, s.takeAnswer_cons h]
  rfl

end Sys2Proof.Machine

/-! A step computes the same whatever the debug setting and the trace are (60_exceptions.md, Debug): each
function of the step commutes with dropping them. -/
namespace Sys2Proof.Machine

/-- An outcome whose next state has lost its debug setting and trace. -/
def withoutTraceOutcome : Host.Outcome State Fault Refusal → Host.Outcome State Fault Refusal
  | .next t => .next t.withoutTrace
  | .fault r => .fault r
  | .refused r => .refused r

variable (s : State)

theorem State.traced_withoutTrace : s.traced.withoutTrace = s.withoutTrace := by
  unfold State.traced
  split <;> rfl

theorem State.raiseAt_withoutTrace (fa : Option Addr) (k : FaultKind) :
    (s.raiseAt fa k).withoutTrace = s.withoutTrace.raiseAt fa k := rfl

theorem State.advanced_withoutTrace (p : Addr) :
    s.withoutTrace.advanced p = (s.advanced p).withoutTrace := by
  show { s.withoutTrace with pc := p } = ({ s.traced.withoutTrace with pc := p } : State)
  rw [s.traced_withoutTrace]

theorem State.commit_assignAcc_withoutTrace (v : Int) :
    s.withoutTrace.commit (s.withoutTrace.assignAcc v) =
      withoutTraceOutcome (s.commit (s.assignAcc v)) := by
  rcases s.assignAcc_cases v with ⟨w, rfl, -⟩ | ⟨hv, -⟩
  · rw [State.assignAcc_word, State.assignAcc_word]
    rfl
  · rw [State.assignAcc_error _ hv, State.assignAcc_error _ hv]
    rfl

theorem State.acceptAnswer_withoutTrace (x : Answer) :
    s.withoutTrace.acceptAnswer x = withoutTraceOutcome (s.acceptAnswer x) := by
  cases x with
  | parseFailure => rfl
  | value k => exact s.commit_assignAcc_withoutTrace k

theorem exec_withoutTrace {i : Instr} (hd : ∀ v, i ≠ .dat v) :
    exec i s.withoutTrace = withoutTraceOutcome (exec i s) := by
  cases i with
  | add a => exact (s.assignNeg (negativeFlag (s.signed + s.operand a))).commit_assignAcc_withoutTrace _
  | sub a => exact (s.assignNeg (negativeFlag (s.signed - s.operand a))).commit_assignAcc_withoutTrace _
  | sta a => rw [exec_sta, exec_sta]; rfl
  | lda a => rw [exec_lda, exec_lda]; rfl
  | bra a => rw [exec_bra, exec_bra]; rfl
  | brz a => rw [exec_brz, exec_brz]; rfl
  | brp a => rw [exec_brp, exec_brp]; rfl
  | inp =>
    rcases hanswers : s.answers with _ | ⟨x, rest⟩
    · rw [exec_inp_of_nil hanswers, exec_inp_of_nil (s := s.withoutTrace) hanswers]
      rfl
    · rw [exec_inp_of_cons hanswers, exec_inp_of_cons (s := s.withoutTrace) hanswers]
      exact (s.answered rest).acceptAnswer_withoutTrace x
  | dat v => exact absurd rfl (hd v)
  | _ => rfl

theorem resumeInp_withoutTrace : resumeInp s.withoutTrace = withoutTraceOutcome (resumeInp s) := by
  rcases hanswers : s.answers with _ | ⟨x, rest⟩
  · rw [resumeInp_of_nil hanswers, resumeInp_of_nil (s := s.withoutTrace) hanswers]
    rfl
  · rw [resumeInp_of_cons hanswers, resumeInp_of_cons (s := s.withoutTrace) hanswers]
    exact (s.answered rest).acceptAnswer_withoutTrace x

theorem runCycle_withoutTrace : runCycle s.withoutTrace = withoutTraceOutcome (runCycle s) := by
  by_cases hpc : s.pc = 99
  · rw [runCycle_of_pc99 hpc, runCycle_of_pc99 (s := s.withoutTrace) hpc]
    rw [withoutTraceOutcome, State.raiseAt_withoutTrace, s.traced_withoutTrace]
    rfl
  · have hlt : s.pc.val + 1 < 100 := by simp only [Fin.ext_iff] at hpc; omega
    rw [runCycle_of_advance (p := ⟨s.pc.val + 1, hlt⟩) rfl,
      runCycle_of_advance (s := s.withoutTrace) (p := ⟨s.pc.val + 1, hlt⟩) rfl, s.advanced_withoutTrace]
    exact exec_withoutTrace _ (decodeWord_ne_dat _)

theorem step_withoutTrace : step s.withoutTrace = withoutTraceOutcome (step s) := by
  cases hstatus : s.status with
  | halted =>
    rw [step_of_halted hstatus, step_of_halted (s := s.withoutTrace) hstatus]
    rfl
  | faulted f =>
    rw [step_of_faulted hstatus, step_of_faulted (s := s.withoutTrace) hstatus]
    rfl
  | running =>
    cases hwaiting : s.waiting with
    | true =>
      rw [step_of_waiting hstatus hwaiting, step_of_waiting (s := s.withoutTrace) hstatus hwaiting]
      exact resumeInp_withoutTrace s
    | false =>
      rw [step_of_between_cycles hstatus hwaiting,
        step_of_between_cycles (s := s.withoutTrace) hstatus hwaiting]
      exact runCycle_withoutTrace s

theorem State.finishCycle_withoutTrace : s.withoutTrace.finishCycle = s.finishCycle.withoutTrace := by
  unfold State.finishCycle
  rw [s.withoutTrace_waiting, step_withoutTrace]
  split
  · cases step s <;> rfl
  · rfl

theorem runWithin_withoutTrace (n : Nat) :
    runWithin n s.withoutTrace = (runWithin n s).withoutTrace := by
  induction n generalizing s with
  | zero => exact s.finishCycle_withoutTrace
  | succ n ih =>
    unfold runWithin
    rw [s.finishCycle_withoutTrace, step_withoutTrace]
    cases step s.finishCycle with
    | next t => exact ih t
    | fault r => rfl
    | refused r => rfl

/-- Settles O44: the trace grows by the snapshot of a fetch alone, and a run commutes with dropping the
debug setting and the trace. -/
theorem theTraceChangesNothing : Obligations.TheTraceChangesNothing := by
  refine ⟨fun s t hwaiting hstep => ?fetches, fun s t hwaiting hstep => ?goesOn, fun n s s' h => ?runs⟩
  case fetches => simp [trace_of_step hstep, hwaiting]
  case goesOn => simp [trace_of_step hstep, hwaiting]
  case runs => rw [← runWithin_withoutTrace, h, runWithin_withoutTrace]

end Sys2Proof.Machine

/-! What a word decodes to, one case per kind of word, and generation after decoding (30_encoding.md R74,
R78 to R81). -/
namespace Sys2Proof
open Machine (illegalWord)

/-- Settles O1: each word is decoded digit by digit. -/
theorem specSampleWordsDecode : Obligations.SpecSampleWordsDecode := by
  unfold Obligations.SpecSampleWordsDecode
  decide

theorem decodeWord_cases (w : Word) :
    (w.val < 100 ∧ decodeWord w = .hlt) ∨ (w = 901 ∧ decodeWord w = .inp) ∨
    (w = 902 ∧ decodeWord w = .out) ∨ (illegalWord w ∧ decodeWord w = rejectWord w) ∨
    ∃ make, classTable.lookup (w.val / 100) = some make ∧ decodeWord w = make (operandOf w) := by
  by_cases hillegal : illegalWord w
  · exact .inr (.inr (.inr (.inl ⟨hillegal, decodeWord_illegal hillegal⟩)))
  by_cases hshort : w.val < 100
  · exact .inl ⟨hshort, decodeWord_short hshort⟩
  by_cases hnine : w.val / 100 = 9
  · have hw : w = 901 ∨ w = 902 := by simp only [Fin.ext_iff]; omega
    rcases hw with rfl | rfl
    · exact .inr (.inl ⟨rfl, rfl⟩)
    · exact .inr (.inr (.inl ⟨rfl, rfl⟩))
  · obtain ⟨make, hmake⟩ := Option.isSome_iff_exists.mp
      (isSome_lookup_classTable (w.val / 100) (by omega) (by omega) (by omega))
    exact .inr (.inr (.inr (.inr ⟨make, hmake, decodeWord_class hmake rfl⟩)))

theorem encode_rejectWord (w : Word) : encode (rejectWord w) = w := by
  unfold rejectWord
  split_ifs with hlt heq
  case pos => rfl
  case pos => exact (Fin.ext heq).symm
  case neg => rfl

/-- Generation gives back every word that is no short value. -/
theorem encode_decodeWord {w : Word} (hw : 100 ≤ w.val) : encode (decodeWord w) = w := by
  rcases decodeWord_cases w with ⟨hshort, -⟩ | ⟨rfl, -⟩ | ⟨rfl, -⟩ | ⟨-, hreject⟩ | ⟨make, hmake, hclass⟩
  · omega
  · rfl
  · rfl
  · rw [hreject, encode_rejectWord]
  · apply Fin.ext
    rw [hclass, encode_class hmake, operandOf_val]
    omega

/-- Settles O4: generation gives a long word back, and a short value decodes to HLT, whose word is 0. -/
theorem longWordsHaveOneSpelling : Obligations.LongWordsHaveOneSpelling := by
  refine ⟨fun w hw => encode_decodeWord hw, fun w u hw hsame => ?unique⟩
  case unique =>
    have hword : encode (decodeWord u) = w := by rw [hsame, encode_decodeWord hw]
    by_cases hu : u.val < 100
    · rw [decodeWord_short hu] at hword
      subst hword
      exact absurd hw (by decide)
    · rw [← hword, encode_decodeWord (not_lt.mp hu)]

theorem wellFormed_rejectWord {w : Word} (h : illegalWord w) : (rejectWord w).wellFormed = true := by
  unfold rejectWord
  split_ifs with hlt heq
  case pos => simp only [Instr.wellFormed, Bool.and_eq_true, decide_eq_true_eq]; omega
  case pos => rfl
  case neg => simp only [Instr.wellFormed, decide_eq_true_eq]; omega

theorem wellFormed_of_lookup {c : Nat} {make : Addr → Instr} (h : classTable.lookup c = some make)
    (a : Addr) : (make a).wellFormed = true := by
  rcases classTable_cases h with h | h | h | h | h | h | h <;> obtain ⟨-, rfl⟩ := h <;> rfl

theorem wellFormed_decodeWord (w : Word) : (decodeWord w).wellFormed = true := by
  rcases decodeWord_cases w with ⟨-, h⟩ | ⟨-, h⟩ | ⟨-, h⟩ | ⟨hillegal, h⟩ | ⟨make, hmake, h⟩ <;> rw [h]
  case inr.inr.inr.inl => exact wellFormed_rejectWord hillegal
  case inr.inr.inr.inr => exact wellFormed_of_lookup hmake _
  all_goals rfl

theorem carriedWord_eq_some {i : Instr} {u : Word} : carriedWord i = some u ↔
    i = .illegal400to499 u ∨ (i = .illegal900 ∧ u = 900) ∨ i = .illegal903to999 u := by
  constructor
  · intro h
    cases i with
    | illegal400to499 w => exact .inl (congrArg _ (Option.some.inj h))
    | illegal900 => exact .inr (.inl ⟨rfl, (Option.some.inj h).symm⟩)
    | illegal903to999 w => exact .inr (.inr (congrArg _ (Option.some.inj h)))
    | _ => cases h
  · rintro (rfl | ⟨rfl, rfl⟩ | rfl) <;> rfl

/-- Settles O5: every kind of word decodes to a well-formed term, and a term that carries a word is that
of an illegal word, which it carries. -/
theorem everyWordDecodesWellFormed : Obligations.EveryWordDecodesWellFormed := by
  intro w
  have hcarried {u : Word} : decodeWord w = .illegal400to499 u ∨
      (decodeWord w = .illegal900 ∧ u = 900) ∨ decodeWord w = .illegal903to999 u ↔
      illegalWord w ∧ u = w := carriedWord_eq_some.symm.trans carriedWord_decodeWord_eq_some
  refine ⟨wellFormed_decodeWord w, ⟨fun hillegal => ?row, ?illegal⟩,
    fun u h => (hcarried.mp (.inl h)).2, fun h => (hcarried.mp (.inr (.inl ⟨h, rfl⟩))).2.symm,
    fun u h => (hcarried.mp (.inr (.inr h))).2⟩
  case row =>
    rcases hcarried.mpr ⟨hillegal, rfl⟩ with h | ⟨h, -⟩ | h
    · exact .inl ⟨w, h⟩
    · exact .inr (.inl h)
    · exact .inr (.inr ⟨w, h⟩)
  case illegal =>
    rintro (⟨u, h⟩ | h | ⟨u, h⟩)
    · exact (hcarried.mp (.inl h)).1
    · exact (hcarried.mp (.inr (.inl ⟨h, rfl⟩))).1
    · exact (hcarried.mp (.inr (.inr h))).1

end Sys2Proof

/-! Reset and load (70_reset_and_hazards.md R210, R211): a reset ends with the image in memory, or as the
reset state with `ImageInvalid` raised. -/
namespace Sys2Proof.Machine

/-- Settles O6: these are fields of the reset state as it is written down. -/
theorem resetRunsFromCellZero : Obligations.ResetRunsFromCellZero :=
  ⟨rfl, rfl, rfl, rfl, rfl⟩

/-- Settles O7: the reset memory lists no cell, so each reads 0. -/
theorem resetAccumulatorFlagCells : Obligations.ResetAccumulatorFlagCells :=
  ⟨rfl, rfl, Memory.read_nil⟩

theorem State.boot_of_load_ok {image : List Int} {s : State} (h : State.reset.load image = .ok s)
    (debug : Bool) (answers : List Answer) :
    State.boot image debug answers = { s with debug := debug, answers := answers } := by
  unfold State.boot
  rw [h]

/-- All a reset can lead to. -/
theorem State.boot_cases (image : List Int) (debug : Bool) (answers : List Answer) :
    (∃ ws, image = ws.map (fun w => (w.val : Int)) ∧ image.length ≤ 100 ∧
      State.boot image debug answers =
        { State.reset with mem := Memory.ofCells 0 ws, debug := debug, answers := answers }) ∨
    ((100 < image.length ∨ ∃ v ∈ image, v < 0 ∨ 999 < v) ∧
      State.boot image debug answers = State.reset.raiseAt none (.imageInvalid image)) := by
  rcases State.reset.load_cases image with ⟨ws, himage, hlen, hload⟩ | ⟨hbad, hload⟩
  · exact .inl ⟨ws, himage, hlen, State.boot_of_load_ok hload debug answers⟩
  · exact .inr ⟨hbad, State.boot_of_load_error hload debug answers⟩

theorem word_inRange {ws : List Word} {v : Int} (hv : v ∈ ws.map fun w => (w.val : Int)) :
    0 ≤ v ∧ v ≤ 999 := by
  obtain ⟨w, -, rfl⟩ := List.mem_map.mp hv
  omega

/-- Settles O8: the image fits, so the reset loads its words from cell 0 upward. -/
theorem bootLoadsAFittingImage : Obligations.BootLoadsAFittingImage := by
  intro image debug answers hlen hrange
  rcases State.boot_cases image debug answers with ⟨ws, rfl, -, hboot⟩ | ⟨hbad, -⟩
  case inl =>
    refine ⟨_, hboot, rfl, rfl, rfl, rfl, rfl, rfl, rfl, rfl, rfl, fun a => ?_⟩
    show ((Memory.read (Memory.ofCells 0 ws) a).val : Int) = _
    rw [Memory.read_ofCells ws 0 a (Nat.zero_le _), Nat.sub_zero]
    exact (List.getD_map ws 0 fun w : Word => (w.val : Int)).symm
  case inr =>
    rcases hbad with hlong | ⟨v, hv, hbad⟩
    · omega
    · have := hrange v hv
      omega

theorem State.boot_of_bad_image {image : List Int}
    (hbad : 100 < image.length ∨ ∃ v ∈ image, v < 0 ∨ 999 < v) (debug : Bool) (answers : List Answer) :
    State.boot image debug answers = State.reset.raiseAt none (.imageInvalid image) := by
  rcases State.boot_cases image debug answers with ⟨ws, himage, hlen, -⟩ | ⟨-, hboot⟩
  · rcases hbad with hlong | ⟨v, hv, hbad⟩
    · omega
    · have := word_inRange (himage ▸ hv)
      omega
  · exact hboot

/-- Settles O9: the reset raises `ImageInvalid`, and a faulted core takes no step. -/
theorem badImageNeverRuns : Obligations.BadImageNeverRuns := fun _ debug answers hbad =>
  ⟨_, State.boot_of_bad_image hbad debug answers, rfl, fun _ => rfl, runWithin_of_faulted rfl⟩

/-- Settles O43: the reset state has no entry in memory and waits for nothing. -/
theorem resetMeetsTheInvariants : Obligations.ResetMeetsTheInvariants :=
  ⟨⟨Memory.wf_nil, nofun⟩, State.statusExact_of_running rfl nofun⟩

/-- Settles O42: a loaded memory is canonical, and `ImageInvalid` is raised for a bad image alone. -/
theorem bootMeetsTheInvariants : Obligations.BootMeetsTheInvariants := by
  intro image debug answers
  rcases State.boot_cases image debug answers with ⟨ws, -, -, hboot⟩ | ⟨hbad, hboot⟩ <;> rw [hboot]
  case inl =>
    exact ⟨⟨Memory.wf_ofCells ws 0, nofun⟩, State.statusExact_of_running rfl nofun⟩
  case inr => exact ⟨⟨Memory.wf_nil, nofun⟩, rfl, rfl, hbad⟩

end Sys2Proof.Machine

/-! Which steps a core takes: halted and waiting cores, the advance from 99, and a handler for every
instruction (40_cycle.md R111, R116, 60_exceptions.md, Power and wait states). -/
namespace Sys2Proof.Machine

/-- Settles O11: the step runs the handler in the advanced state, and no word decodes to an ill-formed
term. -/
theorem stepRunsTheDecodedInstruction : Obligations.StepRunsTheDecodedInstruction := fun s p hs hp =>
  ⟨wellFormed_decodeWord _, step_of_atFetch hs hp, s.advanced_pc p⟩

/-- Settles O13: the advance pre-empts the decode, so the word in cell 99 plays no part. -/
theorem fetchFromCell99Faults : Obligations.FetchFromCell99Faults :=
  fun _ hrunning hwaiting hpc => step_of_pc99 hrunning hwaiting hpc

/-- Settles O16: every handler ends in a case, and a DAT runs as the instruction its value spells. -/
theorem everyInstructionExecutes : Obligations.EveryInstructionExecutes := by
  intro i s
  by_cases hd : ∃ v, i = .dat v
  · obtain ⟨v, rfl⟩ := hd
    obtain ⟨t, hexec, -⟩ := exec_case (decodeWord v) s (decodeWord_ne_dat v)
    exact ⟨t, (exec_dat v s).trans hexec⟩
  · obtain ⟨t, hexec, -⟩ := exec_case i s (not_exists.mp hd)
    exact ⟨t, hexec⟩

theorem step_of_unanswered {s : State} (hrunning : s.status = .running) (hwaiting : s.waiting = true)
    (hanswers : s.answers = []) : step s = .fault .waitingForInput := by
  rw [step_of_waiting hrunning hwaiting, resumeInp_of_nil hanswers]

theorem exec_inp_eq_resumeInp {s : State} (h : s.answers ≠ []) : exec .inp s = resumeInp s := by
  obtain ⟨x, rest, hanswers⟩ := List.exists_cons_of_ne_nil h
  rw [exec_inp_of_cons hanswers, resumeInp_of_cons hanswers]

/-- A waiting core goes on with its INP as if the answer had been at hand. -/
theorem step_of_answered {s : State} (hrunning : s.status = .running) (hwaiting : s.waiting = true)
    (hanswers : s.answers ≠ []) : step s = exec .inp s := by
  rw [step_of_waiting hrunning hwaiting, exec_inp_eq_resumeInp hanswers]

/-- A running core takes a step unless it waits without an answer. -/
theorem exists_step {s : State} (hrunning : s.status = .running)
    (hanswers : s.waiting = true → s.answers ≠ []) : ∃ t, step s = .next t := by
  cases hwaiting : s.waiting with
  | true =>
    rw [step_of_answered hrunning hwaiting (hanswers hwaiting)]
    exact everyInstructionExecutes .inp s
  | false =>
    by_cases hpc : s.pc = 99
    · exact ⟨_, step_of_pc99 hrunning hwaiting hpc⟩
    · have hlt : s.pc.val + 1 < 100 := by simp only [Fin.ext_iff] at hpc; omega
      rw [step_of_between_cycles hrunning hwaiting,
        runCycle_of_advance (p := ⟨s.pc.val + 1, hlt⟩) rfl]
      exact everyInstructionExecutes _ _

theorem State.acceptAnswer_frame {s t : State} {x : Answer} (h : s.acceptAnswer x = .next t) :
    t = { s with acc := t.acc, status := t.status } := by
  rcases s.acceptAnswer_cases x with ⟨-, hnext⟩ | ⟨w, -, hnext⟩ | ⟨k, -, -, hnext⟩ <;>
    cases hnext.symm.trans h <;> rfl

/-- INP with an answer at hand waits no longer. -/
theorem waiting_of_exec_inp {s t : State} (hanswers : s.answers ≠ []) (h : exec .inp s = .next t) :
    t.waiting = false := by
  obtain ⟨x, rest, hcons⟩ := List.exists_cons_of_ne_nil hanswers
  rw [exec_inp_of_cons hcons] at h
  exact congrArg State.waiting (State.acceptAnswer_frame h)

/-- Only INP without an answer starts a wait. -/
theorem ExecCase.awaits {i : Instr} {s t : State} (h : ExecCase i s t) (hnot : s.waiting = false)
    (hwaiting : t.waiting = true) : i = .inp ∧ s.answers = [] := by
  cases h with
  | await hi ha => exact ⟨hi, ha⟩
  | parseFailure | input | inputFault => cases hwaiting
  | _ => cases hnot.symm.trans hwaiting

/-- Settles O15: a core takes a step unless it is halted or faulted or waits without an answer; an answer
ends the wait, and only a fetched INP without one starts it. -/
theorem haltedAndWaitingStates : Obligations.HaltedAndWaitingStates := by
  refine ⟨fun s hhalted => ⟨step_of_halted hhalted, runWithin_of_halted hhalted⟩,
    fun s hrunning hwaiting => ⟨step_of_unanswered hrunning hwaiting, fun hanswers => ?goesOn⟩,
    fun s hrunning hstuck => ?stuck, fun s t hnot hstep hwaiting => ?starts⟩
  case goesOn =>
    obtain ⟨t, hstep⟩ := exists_step hrunning fun _ => hanswers
    have hexec := (step_of_answered hrunning hwaiting hanswers).symm.trans hstep
    exact ⟨t, hstep, waiting_of_exec_inp hanswers hexec⟩
  case stuck =>
    by_contra hsteps
    obtain ⟨t, hstep⟩ := exists_step hrunning fun hwaiting hanswers => hsteps ⟨hwaiting, hanswers⟩
    exact hstuck t hstep
  case starts =>
    obtain ⟨-, ⟨hwait, -⟩ | ⟨-, -, rfl⟩ | ⟨-, p, -, hcase⟩⟩ := step_execCase hstep
    · simp [hnot] at hwait
    · simp [hnot] at hwaiting
    · rw [← s.advanced_answers p]
      exact hcase.awaits ((s.advanced_waiting p).trans hnot) hwaiting

/-- Settles O17: the core that waited differs from one that did not in `waiting` alone, which taking the
answer clears. -/
theorem answeredWaitEqualsDirectInput : Obligations.AnsweredWaitEqualsDirectInput := by
  refine ⟨fun s => step_of_answered, fun s t x hrunning hnil hexec => ?supplied⟩
  case supplied =>
    obtain rfl : s.awaitInput = t := Host.Outcome.next.inj ((exec_inp_of_nil hnil).symm.trans hexec)
    have hcons : (s.supply [x]).answers = [x] := by simp [hnil]
    have hcons' : (s.awaitInput.supply [x]).answers = [x] := hcons
    rw [step_of_answered (by exact hrunning) rfl (by simp), exec_inp_of_cons hcons,
      exec_inp_of_cons hcons']
    rfl

/-- Settles O49: each status decides both what STATUS shows and what a step answers, and a running core is
stuck only in an unanswered wait. -/
theorem endingTellsWhatAStepCanDo : Obligations.EndingTellsWhatAStepCanDo := by
  intro s
  cases hstatus : s.status with
  | halted => simp [State.ending, hstatus, step_of_halted hstatus]
  | faulted f => simp [State.ending, hstatus, step_of_faulted hstatus]
  | running =>
    by_cases hstuck : s.waiting = true ∧ s.answers = []
    · obtain ⟨hwaiting, hanswers⟩ := hstuck
      simp [State.ending, hstatus, hwaiting, hanswers, step_of_unanswered hstatus hwaiting hanswers]
    · obtain ⟨t, hstep⟩ := exists_step hstatus fun hwaiting hanswers => hstuck ⟨hwaiting, hanswers⟩
      have hending : s.ending = .running := by simpa [State.ending, hstatus] using hstuck
      simp [hending, hstep]

end Sys2Proof.Machine

/-! ADD and SUB: the exact result, its split, and the fault of a magnitude that does not fit
(41_arithmetic.md R130, R131). -/
namespace Sys2Proof.Machine

theorem exec_add (a : Addr) (s : State) : exec (.add a) s = s.splitResult (s.signed + s.operand a) := rfl

theorem exec_sub (a : Addr) (s : State) : exec (.sub a) s = s.splitResult (s.signed - s.operand a) := rfl

theorem State.signed_range (s : State) : -(s.acc.val : Int) ≤ s.signed ∧ s.signed ≤ s.acc.val := by
  unfold State.signed signedValue
  split <;> omega

theorem State.operand_range (s : State) (a : Addr) : 0 ≤ s.operand a ∧ s.operand a ≤ 999 := by
  unfold State.operand
  omega

/-- The flag and the magnitude of an integer spell it. -/
theorem signedValue_split {r : Int} {w : Word} (hw : (r.natAbs : Int) = (w.val : Int)) :
    signedValue w (negativeFlag r) = r := by
  by_cases hneg : r < 0
  · simp only [signedValue, negativeFlag, hneg, decide_true, if_true]
    omega
  · simp only [signedValue, negativeFlag, hneg, decide_false, Bool.false_eq_true, if_false]
    omega

/-- A result whose magnitude fits is committed as flag and magnitude, and nothing else changes. -/
theorem State.splitResult_of_fits (s : State) {r : Int} (hr : r.natAbs ≤ 999) :
    ∃ t, s.splitResult r = .next t ∧ t = { s with acc := t.acc, neg := t.neg } ∧
      t.neg = decide (r < 0) ∧ (t.acc.val : Int) = |r| ∧ t.signed = r := by
  rcases s.splitResult_cases r with ⟨w, hw, hsplit⟩ | ⟨hlarge, -⟩
  · exact ⟨_, hsplit, rfl, rfl, hw.symm.trans r.natCast_natAbs, signedValue_split hw⟩
  · omega

/-- A magnitude that does not fit is raised after the flag was written (92_eei_decisions.md D4). -/
theorem State.splitResult_of_large (s : State) {r : Int} (hr : 999 < r.natAbs) :
    s.splitResult r =
      .next ((s.assignNeg (negativeFlag r)).raise (.invalidState .acc (r.natAbs : Int))) := by
  rcases s.splitResult_cases r with ⟨w, hw, -⟩ | ⟨-, hsplit⟩
  · omega
  · exact hsplit

/-- Settles O19: a sum is at least the signed accumulator, and the split commits one that fits. -/
theorem addSplitsTheExactSum : Obligations.AddSplitsTheExactSum := by
  intro a s r hr
  replace hr : r = s.signed + s.operand a := hr
  have hsigned := s.signed_range
  have hoperand := s.operand_range a
  refine ⟨by omega, fun hfits => ?_⟩
  rw [exec_add, ← hr]
  exact s.splitResult_of_fits (by omega)

/-- Settles O20: a difference is at most the signed accumulator, and the split commits one that fits. -/
theorem subSplitsTheExactDifference : Obligations.SubSplitsTheExactDifference := by
  intro a s r hr
  replace hr : r = s.signed - s.operand a := hr
  have hsigned := s.signed_range
  have hoperand := s.operand_range a
  refine ⟨by omega, fun hfits => ?_⟩
  rw [exec_sub, ← hr]
  exact s.splitResult_of_fits (by omega)

/-- Settles O21: the sum overflows above, with the flag clear, the difference below, with the flag set. -/
theorem arithmeticOutOfRangeFaults : Obligations.ArithmeticOutOfRangeFaults := by
  intro a s
  refine ⟨fun hlarge => ?sum, fun hlarge => ?difference⟩
  case sum =>
    set r := s.signed + ((s.mem.read a).val : Int) with hr
    have hflag : negativeFlag r = false := decide_eq_false (by omega)
    have hmagnitude : (r.natAbs : Int) = r := by omega
    rw [exec_add, State.operand, ← hr, s.splitResult_of_large (by omega), hflag, hmagnitude]
    rfl
  case difference =>
    set r := s.signed - ((s.mem.read a).val : Int) with hr
    have hflag : negativeFlag r = true := decide_eq_true (by omega)
    have hmagnitude : (r.natAbs : Int) = -r := by omega
    rw [exec_sub, State.operand, ← hr, s.splitResult_of_large (by omega), hflag, hmagnitude]
    rfl

end Sys2Proof.Machine

/-! STA and LDA, the branches, INP, OUT and the illegal rows: what each handler writes (42_transfer.md,
43_branch.md, 44_io.md, 30_encoding.md R79). -/
namespace Sys2Proof.Machine

/-- Settles O22: 3 is STA's class digit, and its one write is the magnitude to its operand. -/
theorem storeWritesTheMagnitude : Obligations.StoreWritesTheMagnitude := by
  have hclass : classTable.lookup 3 = some Instr.sta := rfl
  refine fun a s => ⟨encode_class hclass a, decodeWord_encode_class hclass a, _, exec_sta a s, rfl,
    fun hwf => ?stored, fun b hb => Memory.read_write_other s.mem s.acc hb⟩
  case stored =>
    have hread : (s.mem.write a s.acc).read a = s.acc := Memory.read_write_same hwf a s.acc
    exact ⟨hread, hread⟩

/-- Settles O23: 5 is LDA's class digit, and its handler's one checked write is in range. -/
theorem loadCopiesTheCellAndClearsTheFlag : Obligations.LoadCopiesTheCellAndClearsTheFlag := by
  have hclass : classTable.lookup 5 = some Instr.lda := rfl
  exact fun a s => ⟨encode_class hclass a, exec_lda a s⟩

/-- A BRA to its own cell undoes the advance (43_branch.md R150). -/
theorem step_of_self_branch {s : State} (hs : s.AtFetch) (hdebug : s.debug = false)
    (hword : decodeWord (s.mem.read s.pc) = .bra s.pc) : step s = .next s := by
  have ⟨_, _, hpc⟩ := hs
  have htraced : s.traced = s := if_neg (by simp [hdebug])
  rw [step_of_atFetch (p := ⟨s.pc.val + 1, by omega⟩) hs rfl, hword, exec_bra, State.advanced, htraced]

/-- Settles O24: 6 is BRA's class digit, its handler writes the target, and a target of 99 is left to the
advance of the next step. -/
theorem branchAlwaysTakesTheTarget : Obligations.BranchAlwaysTakesTheTarget := by
  have hclass : classTable.lookup 6 = some Instr.bra := rfl
  refine ⟨fun a s => ⟨encode_class hclass a, decodeWord_encode_class hclass a, exec_bra a s⟩,
    fun s t hrunning hwaiting hexec => ?to99, fun s hs hdebug hword => ?selfLoop⟩
  case to99 =>
    obtain rfl : { s with pc := 99 } = t := Host.Outcome.next.inj ((exec_bra 99 s).symm.trans hexec)
    exact step_of_pc99 hrunning hwaiting rfl
  case selfLoop =>
    have hoperand : operandOf (s.mem.read s.pc) = s.pc := Fin.ext (by rw [operandOf_val]; omega)
    have hdecode := decodeWord_class hclass (w := s.mem.read s.pc) (by omega)
    rw [hoperand] at hdecode
    exact step_of_self_branch hs hdebug hdecode

/-- Settles O25: 7 is BRZ's class digit, its handler tests the magnitude alone, and not taken from cell 98
it leaves the advanced 99 to the next step. -/
theorem branchIfZeroTestsTheMagnitude : Obligations.BranchIfZeroTestsTheMagnitude := by
  have hclass : classTable.lookup 7 = some Instr.brz := rfl
  refine ⟨fun a s => ⟨encode_class hclass a, decodeWord_encode_class hclass a, exec_brz a s⟩,
    fun a s hrunning hwaiting hpc hacc hword => ?notTaken⟩
  case notTaken =>
    have hs : s.AtFetch := ⟨hrunning, hwaiting, by rw [hpc]; decide⟩
    have hstep : step s = .next (s.advanced 99) := by
      rw [step_of_atFetch (p := 99) hs (by rw [hpc]; rfl), hword, exec_brz,
        if_neg (by rwa [s.advanced_acc])]
    exact ⟨_, hstep, rfl, step_of_pc99 ((s.advanced_status 99).trans hrunning)
      ((s.advanced_waiting 99).trans hwaiting) rfl⟩

/-- Settles O27: the answer's integer commits to the accumulator. -/
theorem inputLoadsTheAnswer : Obligations.InputLoadsTheAnswer := by
  intro s w rest hanswers
  rw [exec_inp_of_cons hanswers, State.acceptAnswer, State.assignAcc_word, State.commit_ok]
  rfl

/-- Settles O28: the checked write rejects the integer after the answer was taken. -/
theorem inputOutOfRangeOrUnanswered : Obligations.InputOutOfRangeOrUnanswered := by
  refine ⟨fun s k rest hanswers hk => ?outOfRange, fun s => exec_inp_of_nil⟩
  case outOfRange =>
    rw [exec_inp_of_cons hanswers, State.acceptAnswer, State.assignAcc_error _ hk, State.commit_error]
    rfl

/-- Settles O30: OUT emits the magnitude. -/
theorem outputEmitsTheMagnitude : Obligations.OutputEmitsTheMagnitude := exec_out

/-- Settles O34: each illegal row raises for its word. -/
theorem illegalRowsRaise : Obligations.IllegalRowsRaise := fun _ _ => ⟨rfl, rfl, rfl⟩

end Sys2Proof.Machine

/-! Frames: what a handler leaves unchanged, read off its next state. -/
namespace Sys2Proof.Machine

/-- A state whose frame `u` keeps the memory reads every cell as before. -/
theorem read_of_frame {s t u : State} (hframe : t = u) (hmem : u.mem = s.mem) (b : Addr) :
    t.mem.read b = s.mem.read b := by
  rw [hframe, hmem]

/-- ADD and SUB write the flag of their exact result, and at most the accumulator and the status besides. -/
theorem State.splitResult_frame {s t : State} {r : Int} (h : s.splitResult r = .next t) :
    t = { s with acc := t.acc, neg := t.neg, status := t.status } ∧ t.neg = negativeFlag r := by
  rcases s.splitResult_cases r with ⟨w, -, hsplit⟩ | ⟨-, hsplit⟩ <;>
    cases hsplit.symm.trans h <;> exact ⟨rfl, rfl⟩

/-- Settles O36: ADD and SUB end in the split of their result, and LDA in its two writes. -/
theorem arithmeticAndLoadFrame : Obligations.ArithmeticAndLoadFrame := by
  refine fun a s t => ⟨fun hexec => ?add, fun hexec => ?sub, fun hexec => ?lda⟩
  case add =>
    have ⟨hframe, _⟩ := State.splitResult_frame hexec
    exact ⟨hframe, read_of_frame hframe rfl⟩
  case sub =>
    have ⟨hframe, _⟩ := State.splitResult_frame hexec
    exact ⟨hframe, read_of_frame hframe rfl⟩
  case lda =>
    cases (exec_lda a s).symm.trans hexec
    exact ⟨rfl, fun _ => rfl⟩

/-- Settles O37: STA's one write leaves the other cells alone. -/
theorem storeFrame : Obligations.StoreFrame := by
  intro a s t hexec
  cases (exec_sta a s).symm.trans hexec
  exact ⟨rfl, fun b hb => Memory.read_write_other s.mem s.acc hb⟩

theorem exec_branch_frame {i : Instr} {a : Addr} {s t : State} (hi : i = .bra a ∨ i = .brz a ∨ i = .brp a)
    (h : exec i s = .next t) : t = { s with pc := t.pc } := by
  rcases hi with rfl | rfl | rfl
  · cases (exec_bra a s).symm.trans h
    rfl
  · cases (exec_brz a s).symm.trans h
    rfl
  · cases (exec_brp a s).symm.trans h
    rfl

theorem exec_inp_frame {s t : State} (h : exec .inp s = .next t) :
    t = { s with acc := t.acc, status := t.status, answers := t.answers, waiting := t.waiting } := by
  cases hanswers : s.answers with
  | nil =>
    cases (exec_inp_of_nil hanswers).symm.trans h
    rfl
  | cons x rest =>
    have hframe := State.acceptAnswer_frame ((exec_inp_of_cons hanswers).symm.trans h)
    rw [hframe]
    rfl

theorem exec_stop_frame {i : Instr} {w : Word} {s t : State}
    (hi : i = .hlt ∨ i = .illegal400to499 w ∨ i = .illegal900 ∨ i = .illegal903to999 w)
    (h : exec i s = .next t) : t = { s with status := t.status } := by
  rcases hi with rfl | rfl | rfl | rfl <;> cases h <;> rfl

/-- Settles O38: none of these handlers stores, and each writes the fields of its own rule. -/
theorem branchChannelAndHaltFrame : Obligations.BranchChannelAndHaltFrame := by
  refine ⟨fun i a s t hi hexec => ?branch, fun s t hexec => ?inp, fun s t hexec => ?out,
    fun i w s t hi hexec => ?stop⟩
  case branch =>
    have hframe := exec_branch_frame hi hexec
    exact ⟨hframe, read_of_frame hframe rfl⟩
  case inp =>
    have hframe := exec_inp_frame hexec
    exact ⟨hframe, read_of_frame hframe rfl⟩
  case out =>
    cases (exec_out s).symm.trans hexec
    exact ⟨rfl, fun _ => rfl⟩
  case stop =>
    have hframe := exec_stop_frame hi hexec
    exact ⟨hframe, read_of_frame hframe rfl⟩

/-- Only ADD, SUB and LDA write the flag. -/
theorem ExecCase.neg_cases {i : Instr} {s t : State} (h : ExecCase i s t) :
    t.neg = s.neg ∨ ∃ a, i = .add a ∨ i = .sub a ∨ i = .lda a := by
  cases h with
  | arith r w hi | arithFault r hi =>
    rcases hi with ⟨a, hi, -⟩ | ⟨a, hi, -⟩
    · exact .inr ⟨a, .inl hi⟩
    · exact .inr ⟨a, .inr (.inl hi)⟩
  | load a hi => exact .inr ⟨a, .inr (.inr hi)⟩
  | _ => exact .inl rfl

/-- Settles O39: going on with an INP and the fault of the advance keep the flag, and so does every fetched
instruction that is not ADD, SUB or LDA. -/
theorem onlyArithmeticAndLoadWriteTheFlag : Obligations.OnlyArithmeticAndLoadWriteTheFlag := by
  refine ⟨fun s t hstep hneg => ?changed,
    fun a s t => ⟨fun hexec => ?add, fun hexec => ?sub, neg_of_exec_lda⟩⟩
  case changed =>
    obtain ⟨-, ⟨-, -, hcase⟩ | ⟨-, -, rfl⟩ | ⟨-, p, -, hcase⟩⟩ := step_execCase hstep
    · exact (hcase.neg_cases.resolve_left hneg).imp fun a hi => by simp at hi
    · exact absurd s.traced_neg hneg
    · exact hcase.neg_cases.resolve_left (by rwa [s.advanced_neg])
  case add => exact (State.splitResult_frame hexec).2
  case sub => exact (State.splitResult_frame hexec).2

/-- The magnitude of an exact result exceeds the accumulator's by a cell's value at most. -/
theorem ExactResult.natAbs_le {i : Instr} {s : State} {r : Int} (h : ExactResult i s r) :
    r.natAbs ≤ s.acc.val + 999 := by
  have hsigned := s.signed_range
  rcases h with ⟨a, -, rfl⟩ | ⟨a, -, rfl⟩
  · have hoperand := s.operand_range a
    omega
  · have hoperand := s.operand_range a
    omega

/-- An arithmetic result of 0 clears the flag, and a fault that keeps an accumulator of 0 cannot arise; so
INP alone writes a 0 beside a set flag. -/
theorem ExecCase.negativeZero {i : Instr} {s t : State} (h : ExecCase i s t) (ht : t.NegativeZero)
    (hs : ¬ s.NegativeZero) :
    s.neg = true ∧ (∃ rest, s.answers = .value 0 :: rest) ∧ i = .inp := by
  obtain ⟨hacc, hneg⟩ := ht
  cases h with
  | arith r w hi hw =>
    have hr : r < 0 := of_decide_eq_true hneg
    have hzero : w.val = 0 := congrArg Fin.val hacc
    omega
  | arithFault r hi hr =>
    have hzero : s.acc.val = 0 := congrArg Fin.val hacc
    have hle := hi.natAbs_le
    omega
  | load => cases hneg
  | input w rest hi ha =>
    obtain rfl : w = 0 := hacc
    exact ⟨hneg, ⟨rest, ha⟩, hi⟩
  | _ => exact absurd ⟨hacc, hneg⟩ hs

theorem State.negativeZero_advanced {s : State} {p : Addr} :
    (s.advanced p).NegativeZero ↔ s.NegativeZero := by
  rw [State.NegativeZero, State.NegativeZero, s.advanced_acc, s.advanced_neg]

/-- Settles O45: the INP that wrote the 0 went on with its answer or was freshly fetched. -/
theorem negativeZeroComesOnlyFromInput : Obligations.NegativeZeroComesOnlyFromInput := by
  intro s t hstep ht hs
  obtain ⟨-, ⟨hwaiting, -, hcase⟩ | ⟨-, -, rfl⟩ | ⟨-, p, -, hcase⟩⟩ := step_execCase hstep
  · obtain ⟨hneg, hanswers, -⟩ := hcase.negativeZero ht hs
    exact ⟨hneg, hanswers, .inl hwaiting⟩
  · obtain ⟨hacc, hneg⟩ := ht
    exact absurd ⟨s.traced_acc.symm.trans hacc, s.traced_neg.symm.trans hneg⟩ hs
  · obtain ⟨hneg, hanswers, hi⟩ := hcase.negativeZero ht (mt State.negativeZero_advanced.mp hs)
    exact ⟨(s.advanced_neg p).symm.trans hneg, by rwa [s.advanced_answers] at hanswers, .inr hi⟩

/-- Settles O46: the step after the store fetches the cell just written, which reads the magnitude. -/
theorem theNextFetchSeesTheStore : Obligations.TheNextFetchSeesTheStore := by
  intro s p q hs hwf hp hq hword
  have ⟨hrunning, hwaiting, _⟩ := hs
  have hstep : step s = .next { s.advanced p with mem := s.mem.write p s.acc } := by
    rw [← s.advanced_mem p, ← s.advanced_acc p, step_of_atFetch hs hp, hword, exec_sta]
  refine ⟨_, hstep, rfl, ?_⟩
  have hfetch : State.AtFetch { s.advanced p with mem := s.mem.write p s.acc } :=
    ⟨(s.advanced_status p).trans hrunning, (s.advanced_waiting p).trans hwaiting, by
      show p.val < 99
      omega⟩
  rw [step_of_atFetch hfetch hq]
  show exec (decodeWord ((s.mem.write p s.acc).read p)) _ = _
  rw [Memory.read_write_same hwf]

end Sys2Proof.Machine

/-! Runs under a budget: what a run does next is decided by the core between fetch cycles that
`finishCycle` answers (40_cycle.md R115, log entry 18). -/
namespace Sys2Proof.Machine

theorem State.finishCycle_of_not_waiting {s : State} (h : s.waiting = false) : s.finishCycle = s := by
  simp [State.finishCycle, h]

theorem State.finishCycle_of_step {s t : State} (hwaiting : s.waiting = true) (h : step s = .next t) :
    s.finishCycle = t := by
  simp [State.finishCycle, hwaiting, h]

/-- A step of a waiting core takes its answer, which ends the wait. -/
theorem waiting_of_step_of_waiting {s t : State} (hwaiting : s.waiting = true) (h : step s = .next t) :
    t.waiting = false := by
  obtain ⟨-, ⟨-, hanswers, hinp⟩ | ⟨hnot, -⟩ | ⟨⟨-, hnot, -⟩, -⟩⟩ := step_inversion h
  · exact waiting_of_exec_inp hanswers hinp
  · cases hnot.symm.trans hwaiting
  · cases hnot.symm.trans hwaiting

/-- Once the cycle in progress is finished, a core that can take a step does not wait. -/
theorem State.finishCycle_waiting_of_step {s t : State} (h : step s.finishCycle = .next t) :
    s.finishCycle.waiting = false := by
  rcases s.finishCycle_cases with ⟨hwaiting, hstep⟩ | ⟨hsame, hstuck⟩
  · exact waiting_of_step_of_waiting hwaiting hstep
  · rw [hsame] at h ⊢
    by_contra hwaiting
    exact hstuck (by simpa using hwaiting) t h

theorem State.finishCycle_finishCycle (s : State) : s.finishCycle.finishCycle = s.finishCycle := by
  rcases s.finishCycle_cases with ⟨hwaiting, hstep⟩ | ⟨hsame, -⟩
  · exact State.finishCycle_of_not_waiting (waiting_of_step_of_waiting hwaiting hstep)
  · rw [hsame, hsame]

theorem runWithin_zero (s : State) : runWithin 0 s = s.finishCycle := rfl

/-- A unit of the budget pays for the step taken once the cycle in progress is finished. -/
theorem runWithin_succ {s t : State} (h : step s.finishCycle = .next t) (n : Nat) :
    runWithin (n + 1) s = runWithin n t := by
  rw [runWithin, h]

/-- A run finishes the cycle in progress first, whatever the budget. -/
theorem runWithin_finishCycle (n : Nat) (s : State) : runWithin n s.finishCycle = runWithin n s := by
  cases n with
  | zero => exact s.finishCycle_finishCycle
  | succ n => rw [runWithin, runWithin, s.finishCycle_finishCycle]

/-- A core that can take no step once its cycle is finished stays there under every budget. -/
theorem runWithin_of_stuck {s : State} (h : ∀ t, step s.finishCycle ≠ .next t) (n : Nat) :
    runWithin n s = s.finishCycle := by
  rw [← runWithin_finishCycle, runWithin_of_no_step h]

/-- The two ways a run with a unit of budget can begin. -/
theorem step_finishCycle_cases (s : State) :
    (∃ t, step s.finishCycle = .next t) ∨ ∀ t, step s.finishCycle ≠ .next t := by
  by_cases h : ∃ t, step s.finishCycle = .next t
  · exact .inl h
  · exact .inr (not_exists.mp h)

theorem runWithin_add (m n : Nat) (s : State) : runWithin (m + n) s = runWithin n (runWithin m s) := by
  induction m generalizing s with
  | zero => rw [Nat.zero_add, runWithin_zero, runWithin_finishCycle]
  | succ m ih =>
    rcases step_finishCycle_cases s with ⟨t, hstep⟩ | hstuck
    · rw [Nat.succ_add, runWithin_succ hstep, runWithin_succ hstep, ih]
    · rw [runWithin_of_stuck hstuck, runWithin_of_stuck hstuck, runWithin_of_no_step hstuck]

theorem ExecCase.debug_eq {i : Instr} {s t : State} (h : ExecCase i s t) : t.debug = s.debug := by
  cases h with
  | _ => rfl

theorem debug_of_step {s t : State} (h : step s = .next t) : t.debug = s.debug := by
  obtain ⟨-, ⟨-, -, hcase⟩ | ⟨-, -, rfl⟩ | ⟨-, p, -, hcase⟩⟩ := step_execCase h
  · exact hcase.debug_eq
  · exact s.traced_debug
  · exact hcase.debug_eq.trans (s.advanced_debug p)

/-- Finishing the cycle in progress emits no snapshot and keeps the setting. -/
theorem State.finishCycle_trace_debug (s : State) :
    s.finishCycle.trace = s.trace ∧ s.finishCycle.debug = s.debug := by
  rcases s.finishCycle_cases with ⟨hwaiting, hstep⟩ | ⟨hsame, -⟩
  · exact ⟨(trace_of_step hstep).trans (if_pos hwaiting), debug_of_step hstep⟩
  · rw [hsame]
    exact ⟨rfl, rfl⟩

/-- A step between fetch cycles emits one snapshot under DEBUG. -/
theorem length_trace_of_step {s t : State} (hwaiting : s.waiting = false) (hdebug : s.debug = true)
    (h : step s = .next t) : t.trace.length = s.trace.length + 1 := by
  simp [trace_of_step h, hwaiting, hdebug]

/-- A run stopped where a step is possible has finished its cycle, and spent each unit on a fetch. -/
theorem runWithin_of_stopped {n : Nat} {s t : State} (h : step (runWithin n s) = .next t) :
    (runWithin n s).waiting = false ∧
    (s.debug = true → (runWithin n s).trace.length = s.trace.length + n) := by
  induction n generalizing s with
  | zero =>
    obtain ⟨htrace, -⟩ := s.finishCycle_trace_debug
    exact ⟨State.finishCycle_waiting_of_step h, fun _ => congrArg List.length htrace⟩
  | succ n ih =>
    rcases step_finishCycle_cases s with ⟨u, hstep⟩ | hstuck
    · rw [runWithin_succ hstep] at h ⊢
      obtain ⟨hwaiting, hlength⟩ := ih h
      refine ⟨hwaiting, fun hdebug => ?_⟩
      obtain ⟨htrace, hset⟩ := s.finishCycle_trace_debug
      rw [hlength ((debug_of_step hstep).trans (hset.trans hdebug)),
        length_trace_of_step (State.finishCycle_waiting_of_step hstep) (hset.trans hdebug) hstep, htrace]
      omega
    · rw [runWithin_of_stuck hstuck] at h
      exact absurd h (hstuck t)

/-- Settles O47: a run is the steps of a core between fetch cycles, one unit each, after the cycle in
progress is finished. -/
theorem theBudgetCountsFetchCycles : Obligations.TheBudgetCountsFetchCycles := by
  refine ⟨fun s => State.finishCycle_of_not_waiting, fun n s t hwaiting hstep => ?paid,
    fun n s t hwaiting hstep => ?free, fun n s hstuck => runWithin_of_no_step hstuck n,
    fun n s t hstep => ?stopped, runWithin_add⟩
  case paid =>
    have hsame := State.finishCycle_of_not_waiting hwaiting
    exact runWithin_succ (by rw [hsame, hstep]) n
  case free => rw [← runWithin_finishCycle, State.finishCycle_of_step hwaiting hstep]
  case stopped => exact ⟨(step_inversion hstep).1, runWithin_of_stopped hstep⟩

/-- Only HLT's handler halts. -/
theorem ExecCase.halts {i : Instr} {s t : State} (h : ExecCase i s t) (hrunning : s.status = .running)
    (hhalted : t.status = .halted) : i = .hlt := by
  cases h with
  | halt hi => exact hi
  | arithFault | parseFailure | inputFault | illegal => cases hhalted
  | _ => cases hrunning.symm.trans hhalted

/-- The next step of a running core fetches a HLT. -/
def State.AtHalt (s : State) : Prop := s.AtFetch ∧ decodeWord (s.mem.read s.pc) = .hlt

theorem atHalt_of_step_halts {s t : State} (h : step s = .next t) (hhalted : t.status = .halted) :
    s.AtHalt := by
  obtain ⟨hrunning, ⟨-, -, hcase⟩ | ⟨-, -, rfl⟩ | ⟨hfetch, p, -, hcase⟩⟩ := step_execCase h
  · cases hcase.halts hrunning hhalted
  · cases hhalted
  · exact ⟨hfetch, hcase.halts ((s.advanced_status p).trans hrunning) hhalted⟩

/-- Going on with an INP does not halt. -/
theorem State.finishCycle_ne_halted {s : State} (hrunning : s.status = .running) :
    s.finishCycle.status ≠ .halted := by
  intro hhalted
  rcases s.finishCycle_cases with ⟨hwaiting, hstep⟩ | ⟨hsame, -⟩
  · obtain ⟨⟨-, hnot, -⟩, -⟩ := atHalt_of_step_halts hstep hhalted
    cases hnot.symm.trans hwaiting
  · rw [hsame, hrunning] at hhalted
    cases hhalted

theorem exists_atHalt_of_runWithin_halted {n : Nat} {s : State} (hrunning : s.status = .running)
    (h : (runWithin n s).status = .halted) : ∃ k, (runWithin k s).AtHalt := by
  induction n generalizing s with
  | zero => exact absurd h (State.finishCycle_ne_halted hrunning)
  | succ n ih =>
    rcases step_finishCycle_cases s with ⟨t, hstep⟩ | hstuck
    · rw [runWithin_succ hstep] at h
      cases hstatus : t.status with
      | running =>
        obtain ⟨k, hk⟩ := ih hstatus h
        exact ⟨k + 1, by rwa [runWithin_succ hstep]⟩
      | halted => exact ⟨0, atHalt_of_step_halts hstep hstatus⟩
      | faulted f =>
        rw [runWithin_of_faulted hstatus, hstatus] at h
        cases h
    · rw [runWithin_of_stuck hstuck] at h
      exact absurd h (State.finishCycle_ne_halted hrunning)

/-- Settles O48: by induction on the budget, the step that halts fetched the HLT. -/
theorem successfulRunsEndInHalt : Obligations.SuccessfulRunsEndInHalt :=
  fun _ hrunning ⟨_, h⟩ => exists_atHalt_of_runWithin_halted hrunning h

end Sys2Proof.Machine

/-! Argument resolution (30_encoding.md R95), and the line a label stands for (R93). -/
namespace Sys2Proof.Machine

theorem resolveArgument_label {labels : List (String × Nat)} {t : String} {n : Nat}
    (ht : parseNumber t = none) (hlabel : labelLine labels t = some n) (line : Nat) :
    resolveArgument labels line [t] = .ok (some n) := by
  simp [resolveArgument, ht, hlabel]

theorem resolveArgument_unresolved {labels : List (String × Nat)} {t : String}
    (ht : parseNumber t = none) (hlabel : labelLine labels t = none) (line : Nat) :
    resolveArgument labels line [t] = .error (.unresolvedReference line t) := by
  simp [resolveArgument, ht, hlabel]

/-- The argument of a known mnemonic is resolved before it is validated. -/
theorem compileLine_of_unresolved {labels : List (String × Nat)} {line : Nat} {m t : String}
    {e : AsmError} (hm : isMnemonic m = true) (ht : resolveArgument labels line [t] = .error e) :
    compileLine labels line [m, t] = .error e := by
  simp [compileLine, hm, ht]

/-- Settles O53: an argument is tried as a number, then as a label, before its line is validated. -/
theorem argumentsAreNumbersThenLabels : Obligations.ArgumentsAreNumbersThenLabels := by
  refine fun labels line t => ⟨rfl, fun n ht => resolveArgument_number ht labels line,
    fun n ht hlabel => resolveArgument_label ht hlabel line, fun m hm ht hlabel => ?unresolved,
    fun a ht hlabel => ?encodes⟩
  case unresolved =>
    have hargument := resolveArgument_unresolved ht hlabel line
    exact ⟨hargument, compileLine_of_unresolved hm hargument⟩
  case encodes =>
    have hargument := resolveArgument_label ht hlabel line
    exact ⟨compileLine_address (make := .add) rfl hargument,
      compileLine_address (make := .brp) rfl hargument⟩

theorem exists_labelLine {labels : List (String × Nat)} {t : String} {n : Nat} (h : (t, n) ∈ labels) :
    ∃ m, labelLine labels t = some m := by
  refine Option.isSome_iff_exists.mp (List.lookup_isSome_iff.mpr ⟨(t, n), ?_, ?_⟩)
  · exact List.mem_reverse.mpr h
  · exact beq_self_eq_true t

/-- Where the bound lines rise, a label's line is the highest bound to it. -/
theorem mem_and_le_of_labelLine {labels : List (String × Nat)} (hrise : labels.Pairwise (·.2 < ·.2))
    {t : String} {n : Nat} (h : labelLine labels t = some n) :
    (t, n) ∈ labels ∧ ∀ m, (t, m) ∈ labels → m ≤ n := by
  obtain ⟨later, earlier, hlabels, hlater⟩ := List.lookup_eq_some_iff.mp h
  have hfall := List.pairwise_reverse.mpr hrise
  rw [hlabels] at hfall
  obtain ⟨-, hfall, -⟩ := List.pairwise_append.mp hfall
  simp only [← List.mem_reverse (as := labels), hlabels]
  refine ⟨by simp, fun m hm => ?_⟩
  rcases List.mem_append.mp hm with hm | hm
  · simpa using hlater _ hm
  · rcases List.mem_cons.mp hm with hm | hm
    · exact (Prod.mk.inj hm).2.le
    · exact (List.rel_of_pairwise_cons hfall hm).le

theorem labelLine_eq_some {labels : List (String × Nat)} (hrise : labels.Pairwise (·.2 < ·.2))
    {t : String} {n : Nat} : labelLine labels t = some n ↔
      (t, n) ∈ labels ∧ ∀ m, (t, m) ∈ labels → m ≤ n := by
  refine ⟨mem_and_le_of_labelLine hrise, fun ⟨hn, hmax⟩ => ?_⟩
  obtain ⟨m, hline⟩ := exists_labelLine hn
  obtain ⟨hm, hmax'⟩ := mem_and_le_of_labelLine hrise hline
  rw [hline, le_antisymm (hmax m hm) (hmax' n hn)]

/-- The label pass binds lines in rising order. -/
theorem pairwise_labelPass (i : Nat) (program : List (List String)) :
    (labelPass i program).1.Pairwise (·.2 < ·.2) := by
  induction program generalizing i with
  | nil => exact List.Pairwise.nil
  | cons line rest ih =>
    match line with
    | [] => exact ih (i + 1)
    | t :: ts =>
      cases ht : isMnemonic t with
      | true =>
        rw [labelPass_mnemonic i ts rest ht]
        exact ih (i + 1)
      | false =>
        rw [labelPass_label i ts rest ht]
        refine List.pairwise_cons.mpr ⟨fun q hq => ?_, ih (i + 1)⟩
        obtain ⟨-, k, -, hline, -⟩ := mem_labelPass.mp hq
        show i < q.2
        omega

/-- Settles O54: the label pass binds lines in rising order, so the highest line bound to a label is the
last one that begins with it. -/
theorem theLastLabelDefinitionWins : Obligations.TheLastLabelDefinitionWins := by
  intro program t n
  rw [labelLine_eq_some (pairwise_labelPass 0 program)]
  simp only [mem_labelPass]
  constructor
  · rintro ⟨⟨ht, k, ts, hk, hline⟩, hmax⟩
    obtain rfl : n = k := by omega
    refine ⟨ht, ⟨ts, hline⟩, fun m us hlt hm => ?_⟩
    have hle := hmax m ⟨ht, m, us, (Nat.zero_add m).symm, hm⟩
    omega
  · rintro ⟨ht, ⟨ts, hline⟩, hlast⟩
    refine ⟨⟨ht, n, ts, (Nat.zero_add n).symm, hline⟩, ?_⟩
    rintro m ⟨-, k, us, hk, hm⟩
    by_contra hlt
    exact hlast k us (by omega) hm

end Sys2Proof.Machine
